-- ==== Sys2Proof/Word.lean ====
section
/-!
DEFINITION. The word types of the core (spec/10_state.md R20 to R32, spec/30_encoding.md R82): bytes, 16-bit words,
12-bit addresses, 4-bit register numbers and row counts, and the frame buffer's grid.
-/

namespace Sys2Proof

/-- An unsigned 8-bit value: a general register, a memory cell, a timer, the immediate NN (R20, R21, R25, R26, R83). -/
abbrev Byte := BitVec 8

/-- An unsigned 16-bit value: an instruction word, pc, I, a stack entry (R23, R24, R27, R81). -/
abbrev Word := BitVec 16

/-- The 12-bit address operand NNN of an instruction (R82, R83). -/
abbrev Addr12 := BitVec 12

/-- A 4-bit field X or Y: a register number, never a value itself (R82, R83). -/
abbrev RegNo := BitVec 4

/-- The 4-bit field N: the row count of a sprite (R82, R83). -/
abbrev Nibble := BitVec 4

/-- VF's register number (R22). -/
abbrev vF : RegNo := 0xF#4

/-- FONT_DATA: 16 glyphs of 5 bytes, the top row first (R57). -/
abbrev Font := Vector (Vector Byte 5) 16

/-- The pixel grid: 32 rows of 64 Boolean pixels, row by row from the top, each from the left (R30, R170). -/
abbrev FrameBuffer := Vector (Vector Bool 64) 32

end Sys2Proof
end

