-- ==== Sys2Proof/Config.lean ====
section
/-!
DEFINITION. What is fixed for this hardware (spec/00_scope.md R10), the parameters that
spec/93_implementation_defined.md gives a default, and the free values, which have no body.
-/

namespace Sys2Proof.Config

/-- MEM_SIZE (R10, R20). -/
abbrev memSize : Nat := 4096

/-- PROGRAM_BASE (R10): the reset value of pc and the load address. -/
def programBase : Nat := 0x200

/-- MAX_IMAGE (R10, R242): the bytes from 0x200 to 0xFFF. -/
def maxImage : Nat := 3584

/-- FONT_DATA (R57; D21): glyphs 0 to 7, top row first, bit 7 leftmost. UNVERIFIED (the spec marks the bytes as
general knowledge, log 8). -/
def fontLow : Vector (Vector Byte 5) 8 :=
  #v[#v[0xF0#8, 0x90#8, 0x90#8, 0x90#8, 0xF0#8], #v[0x20#8, 0x60#8, 0x20#8, 0x20#8, 0x70#8],
     #v[0xF0#8, 0x10#8, 0xF0#8, 0x80#8, 0xF0#8], #v[0xF0#8, 0x10#8, 0xF0#8, 0x10#8, 0xF0#8],
     #v[0x90#8, 0x90#8, 0xF0#8, 0x10#8, 0x10#8], #v[0xF0#8, 0x80#8, 0xF0#8, 0x10#8, 0xF0#8],
     #v[0xF0#8, 0x80#8, 0xF0#8, 0x90#8, 0xF0#8], #v[0xF0#8, 0x10#8, 0x20#8, 0x40#8, 0x40#8]]

/-- FONT_DATA (R57): glyphs 8 to F. -/
def fontHigh : Vector (Vector Byte 5) 8 :=
  #v[#v[0xF0#8, 0x90#8, 0xF0#8, 0x90#8, 0xF0#8], #v[0xF0#8, 0x90#8, 0xF0#8, 0x10#8, 0xF0#8],
     #v[0xF0#8, 0x90#8, 0xF0#8, 0x90#8, 0x90#8], #v[0xE0#8, 0x90#8, 0xE0#8, 0x90#8, 0xE0#8],
     #v[0xF0#8, 0x80#8, 0x80#8, 0x80#8, 0xF0#8], #v[0xE0#8, 0x90#8, 0x90#8, 0x90#8, 0xE0#8],
     #v[0xF0#8, 0x80#8, 0xF0#8, 0x80#8, 0xF0#8], #v[0xF0#8, 0x80#8, 0xF0#8, 0x80#8, 0x80#8]]

/-- The parameters a model takes as arguments (R10; I4, I7): STACK_CAPACITY, at least 16 (R27, D7), and FONT_DATA, glyph
g of which is at 5g to 5g + 4 (R57). The third argument R10 names, the draw, is an input of the step. -/
structure Params where
  stackCapacity : Nat
  font          : Font
  capacityOk    : 16 ≤ stackCapacity
  deriving DecidableEq, Repr

/-- This hardware's parameters: 16 return addresses (R10, C4, log 7) and the font of R57. -/
def hardware : Params := ⟨16, fontLow ++ fontHigh, by decide⟩

/-- strictDecode (I9, D11): a word outside the opcode table is a no-op with a diagnostic (R86). -/
def strictDecode : Bool := true

/-- shiftVFLast (I10, D13): false is the rules' reading of 8XF6 and 8XFE, in which the shift reads VF after the flag is
written (R129, R131). -/
def shiftVFLast : Bool := false

/-- originBeforeClear (I11, D14): DXYN reads its origin before it clears VF (R172). -/
def originBeforeClear : Bool := true

/-- glyphMask (I14, D31): false is the rule's reading of FX29, in which V[X] is not masked to 4 bits (R153). -/
def glyphMask : Bool := false

/-- A value for every field whose content the spec calls unspecified after a fault (R213, I2), on a core whose call stack
has the given capacity. -/
structure Residue (capacity : Nat) where
  mem   : Vector Byte memSize
  v     : Vector Byte 16
  ireg  : Word
  pc    : Word
  sp    : Fin (capacity + 1)
  stack : Vector Word capacity
  dt    : Byte
  st    : Byte
  fb    : FrameBuffer
  dirty : Bool
  keys  : Vector Bool 16
  deriving Inhabited

/-- FREE VALUE (R213, I2; log 2): what the n-th free choice leaves in the unspecified state after a fault. -/
opaque afterFault : (capacity : Nat) → Nat → Residue capacity

/-- FREE VALUE (R132, I3; log 3): the n-th free choice of a random byte. -/
opaque randByte : Nat → Byte

end Sys2Proof.Config
end

