-- ==== Sys2Proof/Syntax.lean ====
section
/-!
DEFINITION. The instructions (spec/opcode_table.json; spec/30_encoding.md R85, R90): one constructor for each of the 34
rows, its operands the fields of the row, each of exactly the field's width (R82, R83). A constructor's name is the
row's mnemonic in lower camel case; `Ind` stands for `[I]`.
-/

namespace Sys2Proof

/-- The 34 instructions of R85. -/
inductive Instr where
  /-- 00E0 CLS (R171) -/
  | cls
  /-- 00EE RET (R101) -/
  | ret
  /-- 1NNN JP NNN (R102) -/
  | jpNnn (nnn : Addr12)
  /-- 2NNN CALL NNN (R103) -/
  | callNnn (nnn : Addr12)
  /-- 3XNN SE VX, NN (R104) -/
  | seVxNn (x : RegNo) (nn : Byte)
  /-- 4XNN SNE VX, NN (R105) -/
  | sneVxNn (x : RegNo) (nn : Byte)
  /-- 5XY0 SE VX, VY (R106) -/
  | seVxVy (x y : RegNo)
  /-- 6XNN LD VX, NN (R121) -/
  | ldVxNn (x : RegNo) (nn : Byte)
  /-- 7XNN ADD VX, NN (R122) -/
  | addVxNn (x : RegNo) (nn : Byte)
  /-- 8XY0 LD VX, VY (R123) -/
  | ldVxVy (x y : RegNo)
  /-- 8XY1 OR VX, VY (R124) -/
  | orVxVy (x y : RegNo)
  /-- 8XY2 AND VX, VY (R125) -/
  | andVxVy (x y : RegNo)
  /-- 8XY3 XOR VX, VY (R126) -/
  | xorVxVy (x y : RegNo)
  /-- 8XY4 ADD VX, VY (R127) -/
  | addVxVy (x y : RegNo)
  /-- 8XY5 SUB VX, VY (R128) -/
  | subVxVy (x y : RegNo)
  /-- 8XY6 SHR VX (R129); Y is encoded and not read -/
  | shrVx (x y : RegNo)
  /-- 8XY7 SUBN VX, VY (R130) -/
  | subnVxVy (x y : RegNo)
  /-- 8XYE SHL VX (R131); Y is encoded and not read -/
  | shlVx (x y : RegNo)
  /-- 9XY0 SNE VX, VY (R107) -/
  | sneVxVy (x y : RegNo)
  /-- ANNN LD I, NNN (R151) -/
  | ldINnn (nnn : Addr12)
  /-- BNNN JP V0, NNN (R108) -/
  | jpV0Nnn (nnn : Addr12)
  /-- CXNN RND VX, NN (R132) -/
  | rndVxNn (x : RegNo) (nn : Byte)
  /-- DXYN DRW VX, VY, N (R172) -/
  | drwVxVyN (x y : RegNo) (n : Nibble)
  /-- EX9E SKP VX (R191) -/
  | skpVx (x : RegNo)
  /-- EXA1 SKNP VX (R192) -/
  | sknpVx (x : RegNo)
  /-- FX07 LD VX, DT (R193) -/
  | ldVxDt (x : RegNo)
  /-- FX0A LD VX, K (R194) -/
  | ldVxK (x : RegNo)
  /-- FX15 LD DT, VX (R195) -/
  | ldDtVx (x : RegNo)
  /-- FX18 LD ST, VX (R196) -/
  | ldStVx (x : RegNo)
  /-- FX1E ADD I, VX (R152) -/
  | addIVx (x : RegNo)
  /-- FX29 LD F, VX (R153) -/
  | ldFVx (x : RegNo)
  /-- FX33 LD B, VX (R154) -/
  | ldBVx (x : RegNo)
  /-- FX55 LD [I], VX (R155) -/
  | ldIndVx (x : RegNo)
  /-- FX65 LD VX, [I] (R156) -/
  | ldVxInd (x : RegNo)
  deriving DecidableEq, Repr

end Sys2Proof
end

