-- ==== Sys2Proof/WellFormed.lean ====
section
/-!
DEFINITION. What a well-formed input is. An operand's type is exactly its field's width (spec/30_encoding.md R82, R83),
so every term of `Instr` is an instruction the encoding admits and there is no check on operands. The checks are those
the spec puts on what reaches the core from outside: the assembled form (R89), the program image and the load port
(spec/70_reset_and_hazards.md R242, spec/60_exceptions.md R225), and the bound on STACK_CAPACITY (R27).
-/

namespace Sys2Proof

/-- The form the assembler writes: `SHR VX` and `SHL VX` with Y = 0, every other instruction as it is (R89). The decoder
accepts any Y. -/
def Instr.assembled : Instr → Bool
  | .shrVx _ y => y == 0
  | .shlVx _ y => y == 0
  | _ => true

/-- A program image fits in 0x200 to 0xFFF (R242, D20). -/
def imageFits (image : List Byte) : Bool := decide (image.length ≤ Config.maxImage)

/-- The load port takes offsets below 3584 only (R225). -/
def loadOffsetOk (offset : Addr12) : Bool := decide (offset.toNat < Config.maxImage)

/-- A call stack has at least 16 entries (R10, R27, D7). -/
def stackCapacityOk (capacity : Nat) : Bool := decide (16 ≤ capacity)

/-- The parameters of a model, from a capacity that passes the check and any font (R10, R27, R57). -/
def paramsOf (capacity : Nat) (font : Font) : Option Config.Params :=
  if h : stackCapacityOk capacity then some ⟨capacity, font, of_decide_eq_true h⟩ else none

end Sys2Proof
end

