-- ==== Sys2Proof/Decode.lean ====
section
/-!
DEFINITION. Decoding bytes to an instruction, total, rejecting by name (spec/30_encoding.md R82 to R87), and after it the
encoder, from the same table (spec/opcode_table.json).
-/

namespace Sys2Proof

/-- Why bytes are no instruction: fewer than two bytes, or one of the six classes of UNRECOGNIZED words of R86. -/
inductive DecodeError where
  /-- fewer than two bytes are left: no word (R81) -/
  | truncated
  /-- 0x0NNN other than 00E0 and 00EE; the classic SYS words are here (R3, R86) -/
  | family0
  /-- 5XYn with n ≠ 0 (R86) -/
  | family5
  /-- 8XYn with n in 8, 9, A, B, C, D, F (R86) -/
  | family8
  /-- 9XYn with n ≠ 0 (R86) -/
  | family9
  /-- EXkk with kk other than 9E and A1 (R86) -/
  | familyE
  /-- FXkk with kk outside the nine selectors (R86) -/
  | familyF
  deriving DecidableEq, Repr

/-- F = w[15:12] (R82). -/
def fieldF (w : Word) : BitVec 4 := w.extractLsb' 12 4

/-- X = w[11:8] (R82). -/
def fieldX (w : Word) : RegNo := w.extractLsb' 8 4

/-- Y = w[7:4] (R82). -/
def fieldY (w : Word) : RegNo := w.extractLsb' 4 4

/-- N = w[3:0] (R82). -/
def fieldN (w : Word) : Nibble := w.extractLsb' 0 4

/-- NN = w[7:0] (R82). -/
def fieldNN (w : Word) : Byte := w.extractLsb' 0 8

/-- NNN = w[11:0] (R82). -/
def fieldNNN (w : Word) : Addr12 := w.extractLsb' 0 12

/-- Family 0x8, sub-selected by the bottom nibble (R85). -/
def decode8 (n : Nibble) (x y : RegNo) : Except DecodeError Instr :=
  match n with
  | 0x0#4 => .ok (.ldVxVy x y)
  | 0x1#4 => .ok (.orVxVy x y)
  | 0x2#4 => .ok (.andVxVy x y)
  | 0x3#4 => .ok (.xorVxVy x y)
  | 0x4#4 => .ok (.addVxVy x y)
  | 0x5#4 => .ok (.subVxVy x y)
  | 0x6#4 => .ok (.shrVx x y)
  | 0x7#4 => .ok (.subnVxVy x y)
  | 0xE#4 => .ok (.shlVx x y)
  | _ => .error .family8

/-- Family 0xE, sub-selected by the low byte (R85). -/
def decodeE (nn : Byte) (x : RegNo) : Except DecodeError Instr :=
  match nn with
  | 0x9E#8 => .ok (.skpVx x)
  | 0xA1#8 => .ok (.sknpVx x)
  | _ => .error .familyE

/-- Family 0xF, sub-selected by the low byte (R85). -/
def decodeF (nn : Byte) (x : RegNo) : Except DecodeError Instr :=
  match nn with
  | 0x07#8 => .ok (.ldVxDt x)
  | 0x0A#8 => .ok (.ldVxK x)
  | 0x15#8 => .ok (.ldDtVx x)
  | 0x18#8 => .ok (.ldStVx x)
  | 0x1E#8 => .ok (.addIVx x)
  | 0x29#8 => .ok (.ldFVx x)
  | 0x33#8 => .ok (.ldBVx x)
  | 0x55#8 => .ok (.ldIndVx x)
  | 0x65#8 => .ok (.ldVxInd x)
  | _ => .error .familyF

/-- `Decode(w)` of R85: the family by the top nibble, strict in every fixed bit (R86, D11). The last arm is family 0xF,
the one value of a nibble that is left. -/
def decodeWord (w : Word) : Except DecodeError Instr :=
  match fieldF w with
  | 0x0#4 => if w = 0x00E0#16 then .ok .cls else if w = 0x00EE#16 then .ok .ret else .error .family0
  | 0x1#4 => .ok (.jpNnn (fieldNNN w))
  | 0x2#4 => .ok (.callNnn (fieldNNN w))
  | 0x3#4 => .ok (.seVxNn (fieldX w) (fieldNN w))
  | 0x4#4 => .ok (.sneVxNn (fieldX w) (fieldNN w))
  | 0x5#4 => if fieldN w = 0 then .ok (.seVxVy (fieldX w) (fieldY w)) else .error .family5
  | 0x6#4 => .ok (.ldVxNn (fieldX w) (fieldNN w))
  | 0x7#4 => .ok (.addVxNn (fieldX w) (fieldNN w))
  | 0x8#4 => decode8 (fieldN w) (fieldX w) (fieldY w)
  | 0x9#4 => if fieldN w = 0 then .ok (.sneVxVy (fieldX w) (fieldY w)) else .error .family9
  | 0xA#4 => .ok (.ldINnn (fieldNNN w))
  | 0xB#4 => .ok (.jpV0Nnn (fieldNNN w))
  | 0xC#4 => .ok (.rndVxNn (fieldX w) (fieldNN w))
  | 0xD#4 => .ok (.drwVxVyN (fieldX w) (fieldY w) (fieldN w))
  | 0xE#4 => decodeE (fieldNN w) (fieldX w)
  | _ => decodeF (fieldNN w) (fieldX w)

/-- Two bytes as one big-endian word: the first is bits 15:8 (R53, R80). -/
def wordOfBytes (hi lo : Byte) : Word := hi ++ lo

/-- Decode the instruction at the head of a byte sequence and give the bytes after it (R81: always two bytes). -/
def decode : List Byte → Except DecodeError (Instr × List Byte)
  | hi :: lo :: rest =>
    match decodeWord (wordOfBytes hi lo) with
    | .ok i => .ok (i, rest)
    | .error e => .error e
  | _ => .error .truncated

/-- The word of an instruction, field by field from the top (spec/opcode_table.json, R85, R90). -/
def encode : Instr → Word
  | .cls => 0x00E0#16
  | .ret => 0x00EE#16
  | .jpNnn nnn => 0x1#4 ++ nnn
  | .callNnn nnn => 0x2#4 ++ nnn
  | .seVxNn x nn => 0x3#4 ++ x ++ nn
  | .sneVxNn x nn => 0x4#4 ++ x ++ nn
  | .seVxVy x y => 0x5#4 ++ x ++ y ++ 0x0#4
  | .ldVxNn x nn => 0x6#4 ++ x ++ nn
  | .addVxNn x nn => 0x7#4 ++ x ++ nn
  | .ldVxVy x y => 0x8#4 ++ x ++ y ++ 0x0#4
  | .orVxVy x y => 0x8#4 ++ x ++ y ++ 0x1#4
  | .andVxVy x y => 0x8#4 ++ x ++ y ++ 0x2#4
  | .xorVxVy x y => 0x8#4 ++ x ++ y ++ 0x3#4
  | .addVxVy x y => 0x8#4 ++ x ++ y ++ 0x4#4
  | .subVxVy x y => 0x8#4 ++ x ++ y ++ 0x5#4
  | .shrVx x y => 0x8#4 ++ x ++ y ++ 0x6#4
  | .subnVxVy x y => 0x8#4 ++ x ++ y ++ 0x7#4
  | .shlVx x y => 0x8#4 ++ x ++ y ++ 0xE#4
  | .sneVxVy x y => 0x9#4 ++ x ++ y ++ 0x0#4
  | .ldINnn nnn => 0xA#4 ++ nnn
  | .jpV0Nnn nnn => 0xB#4 ++ nnn
  | .rndVxNn x nn => 0xC#4 ++ x ++ nn
  | .drwVxVyN x y n => 0xD#4 ++ x ++ y ++ n
  | .skpVx x => 0xE#4 ++ x ++ 0x9E#8
  | .sknpVx x => 0xE#4 ++ x ++ 0xA1#8
  | .ldVxDt x => 0xF#4 ++ x ++ 0x07#8
  | .ldVxK x => 0xF#4 ++ x ++ 0x0A#8
  | .ldDtVx x => 0xF#4 ++ x ++ 0x15#8
  | .ldStVx x => 0xF#4 ++ x ++ 0x18#8
  | .addIVx x => 0xF#4 ++ x ++ 0x1E#8
  | .ldFVx x => 0xF#4 ++ x ++ 0x29#8
  | .ldBVx x => 0xF#4 ++ x ++ 0x33#8
  | .ldIndVx x => 0xF#4 ++ x ++ 0x55#8
  | .ldVxInd x => 0xF#4 ++ x ++ 0x65#8

/-- The bytes of an instruction as memory holds them, the more significant first (R53). -/
def encodeBytes (i : Instr) : List Byte := [(encode i).extractLsb' 8 8, (encode i).extractLsb' 0 8]

/-- The bytes that hold the table's bits w, bit 0 the least significant of the one word (R11, R81). -/
def tableBytes (w : Nat) : List Byte := [BitVec.ofNat 8 (w / 256), BitVec.ofNat 8 w]

/-- What the decoder reads from a table row's word; every row is 16 bits, so nbits decides nothing (R81). -/
def decodeTableWord (_nbits w : Nat) : Option Instr :=
  match decode (tableBytes w) with
  | .ok (i, _) => some i
  | .error _ => none

end Sys2Proof
end

