-- ==== Sys2Proof/Machine/State.lean ====
section
/-!
DEFINITION. The machine's state as plain data (spec/10_state.md R20 to R36), the reasons a step can stop, and the state
after construction (spec/70_reset_and_hazards.md R240).
-/

namespace Sys2Proof.Machine

/-- `mem` (R20): the cells that differ from what construction leaves (`Memory.background`), by rising address, beside the
FONT_DATA that this content has (R57). The form is `Memory.wf`. -/
structure Memory where
  /-- FONT_DATA, a parameter (R10, R57): no operation changes it -/
  font  : Font
  cells : List Host.Cell
  deriving DecidableEq, Repr

/-- The call stack and its pointer (R27, R28). STACK_CAPACITY is a parameter (R10): no operation changes it. -/
structure CallStack where
  /-- STACK_CAPACITY (R27) -/
  capacity   : Nat
  /-- the return addresses; those at SP and above are stale (R27) -/
  entries    : Vector Word capacity
  /-- the stack pointer SP: the next free slot, 0 to STACK_CAPACITY (R28) -/
  sp         : Fin (capacity + 1)
  /-- STACK_CAPACITY is at least 16 (R27, D7) -/
  capacityOk : 16 ≤ capacity
  deriving DecidableEq, Repr

/-- The fault kinds of R210; `none` is code 0, NONE. -/
inductive FaultKind where
  /-- 0: no fault has occurred -/
  | none
  /-- 1: pc > 0xFFE at fetch (R80) -/
  | fetchOutOfRange
  /-- 2: a data address above 0xFFF (R52) -/
  | memOutOfRange
  /-- 3: CALL with a full stack (R103) -/
  | stackOverflow
  /-- 4: RET with an empty stack (R101) -/
  | stackUnderflow
  /-- 5: a key index above 0xF (R197) -/
  | keyIndexOutOfRange
  deriving DecidableEq, Repr

/-- `Diag(w, ipc)` (R216): the word that was UNRECOGNIZED and the address it was fetched at. -/
structure Diag where
  opcode : Word
  addr   : Word
  deriving DecidableEq, Repr

/-- The state of the core, and after it three fields of the model's own. -/
structure State where
  /-- the address space (R20) -/
  mem              : Memory
  /-- V0 to VF (R21) -/
  v                : Vector Byte 16
  /-- the index register I (R23) -/
  ireg             : Word
  /-- the program counter (R24) -/
  pc               : Word
  /-- the call stack with SP (R27, R28) -/
  stack            : CallStack
  /-- the delay timer DT (R25) -/
  dt               : Byte
  /-- the sound timer ST (R26) -/
  st               : Byte
  /-- the frame buffer FB (R30) -/
  fb               : FrameBuffer
  /-- the dirty flag (R31) -/
  dirty            : Bool
  /-- the input latch (R32) -/
  keys             : Vector Bool 16
  /-- fault status (R33): the core has halted -/
  halted           : Bool
  /-- fault status (R33): the kind of the first fault -/
  faultKind        : FaultKind
  /-- fault status (R33): the address of the instruction that faulted -/
  faultPc          : Word
  /-- fault status (R33): the word of the instruction that faulted -/
  faultOpcode      : Word
  /-- fault status (R33): whether `faultOpcode` holds a word -/
  faultOpcodeValid : Bool
  /-- MODEL'S OWN (log 3): the draws on `rand_in` that no CXNN has used yet, oldest first (R10, R225) -/
  randIn           : List Byte
  /-- MODEL'S OWN (log 2, log 3): which free value is taken next -/
  freeCount        : Nat
  /-- MODEL'S OWN (log 4): the diagnostic output of the last step (R216, R225); no rule reads it -/
  diag             : Option Diag
  deriving DecidableEq, Repr

/-- Why the machine stops with no next state. -/
inductive Fault where
  /-- A step was issued to a halted core (R212, I20): stuck, nothing changes, and the fault record is reported. Raised
  by `step` alone. Safe: the spec has the step refused too. -/
  | coreHalted (kind : FaultKind) (pc : Word) (opcode : Word) (opcodeValid : Bool)
  deriving DecidableEq, Repr

/-- Why the model gives no meaning. -/
inductive Refusal where
  /-- The instruction has no meaning yet. Raised by no arm of `exec`. Safe. -/
  | notModelled (mnemonic : String)
  /-- A word outside the opcode table, in a model that takes strictDecode as false (I9). Raised by `unrecognized`, and
  never with the parameter at its default, true. Safe. -/
  | looseDecode (word : Word)
  /-- The host loads a byte after the first step (R225, R242, D20). Raised by the host's load alone. Safe. -/
  | loadAfterFirstStep
  /-- The host loads at an offset of 3584 or more (R225). Raised by the host's load alone. Safe. -/
  | loadOutOfWindow
  /-- The host loads an image of more than 3584 bytes (R242, I19, D20). Raised by the host's load alone. Safe. -/
  | imageTooLarge
  deriving DecidableEq, Repr

/-- What a step or a transaction answers. -/
abbrev Result := Host.Outcome State Fault Refusal

/-- The parameters a state was constructed with (R10). -/
def State.params (s : State) : Config.Params := ⟨s.stack.capacity, s.mem.font, s.stack.capacityOk⟩

/-- The construction state for any parameters, field by field (R10, R240). The three last fields are the model's own (log
6: DESIGN CHOICE). -/
def State.resetOf (p : Config.Params) : State where
  mem              := ⟨p.font, []⟩
  v                := Vector.replicate 16 0x00#8
  ireg             := 0x0000#16
  pc               := 0x0200#16
  stack            := ⟨p.stackCapacity, Vector.replicate p.stackCapacity 0x0000#16, 0, p.capacityOk⟩
  dt               := 0x00#8
  st               := 0x00#8
  fb               := Vector.replicate 32 (Vector.replicate 64 false)
  dirty            := false
  keys             := Vector.replicate 16 false
  halted           := false
  faultKind        := .none
  faultPc          := 0x0000#16
  faultOpcode      := 0x0000#16
  faultOpcodeValid := false
  randIn           := []
  freeCount        := 0
  diag             := none

/-- The construction state of this hardware (R240). -/
def State.reset : State := State.resetOf Config.hardware

end Sys2Proof.Machine
end

