-- ==== Sys2Proof/Machine/Ops.lean ====
section
/-!
DEFINITION. The shared operations over memory, the call stack, the frame buffer and the random draw
(spec/20_memory.md, spec/10_state.md R27 to R31, spec/44_display.md R170), and fault entry (spec/60_exceptions.md R211)
with construction, the one way out of it (R214, spec/70_reset_and_hazards.md R244).
-/

namespace Sys2Proof.Machine

/-! ### Memory -/

/-- What an address no write has reached reads as: FONT_DATA at 0x000 to 0x04F, glyph g at 5g to 5g + 4, and 0x00 above
(R56, R57, R240). -/
def background (font : Font) (a : Nat) : Byte :=
  if h : a < 80 then (font[a / 5]'(by omega))[a % 5]'(Nat.mod_lt _ (by decide)) else 0x00#8

/-- The canonical form of the cells: addresses strictly rising and inside the 4096 bytes (R20), no cell equal to the
background. -/
abbrev Cells.wf (font : Font) (m : List Host.Cell) : Prop :=
  m.Pairwise (fun c d => c.1 < d.1) ∧ ∀ c ∈ m, c.1 < Config.memSize ∧ c.2 ≠ background font c.1

/-- The byte at an address. -/
def Cells.get (font : Font) : List Host.Cell → Nat → Byte
  | [], a => background font a
  | (a', b) :: rest, a => if a = a' then b else Cells.get font rest a

/-- The cell (a, b) in front of m, or m alone where b is the background. -/
def Cells.cons (font : Font) (a : Nat) (b : Byte) (m : List Host.Cell) : List Host.Cell :=
  if b = background font a then m else (a, b) :: m

/-- A byte written, keeping the canonical form. -/
def Cells.set (font : Font) : List Host.Cell → Nat → Byte → List Host.Cell
  | [], a, b => Cells.cons font a b []
  | (a', b') :: rest, a, b =>
    if a < a' then Cells.cons font a b ((a', b') :: rest)
    else if a = a' then Cells.cons font a b rest
    else (a', b') :: Cells.set font rest a b

/-- The cells that hold exactly the given 4096 bytes. Their laws are `Cells.get_ofBytes` and `Cells.wf_ofBytes`; elsewhere
this is not unfolded, for it runs over all 4096 addresses. -/
@[irreducible] def Cells.ofBytes (font : Font) (bytes : Vector Byte Config.memSize) : List Host.Cell :=
  (List.finRange Config.memSize).filterMap fun (a : Fin Config.memSize) =>
    if bytes[a] = background font a then none else some (a.val, bytes[a])

/-- What an address of m that no write has reached reads as. -/
def Memory.background (m : Memory) (a : Nat) : Byte := Machine.background m.font a

/-- The canonical form of memory. -/
abbrev Memory.wf (m : Memory) : Prop := Cells.wf m.font m.cells

/-- mem[a] (R20). -/
def Memory.get (m : Memory) (a : Nat) : Byte := Cells.get m.font m.cells a

/-- mem[a] <- b, keeping the canonical form (R20). -/
def Memory.set (m : Memory) (a : Nat) (b : Byte) : Memory := { m with cells := Cells.set m.font m.cells a b }

/-- Bytes written one at a time at rising addresses from `base` (R55). -/
def Memory.setBytes (m : Memory) (base : Nat) : List Byte → Memory
  | [] => m
  | b :: bs => Memory.setBytes (m.set base b) (base + 1) bs

/-- The range check (R51, R52, R157): n bytes from the unbounded address `base` all lie at or below 0xFFF. Nothing is
accessed when n = 0, so nothing is out of range (R172). -/
def inRange (base n : Nat) : Bool := n == 0 || decide (base + n ≤ Config.memSize)

/-- n bytes read at rising addresses from `base`, or none where the range check fails (R52, R55). `MemRead(a, 1)` is
`readBytes s a 1`. -/
def readBytes (s : State) (base n : Nat) : Option (List Byte) :=
  if inRange base n then some ((List.range n).map fun k => s.mem.get (base + k)) else none

/-- Bytes written at rising addresses from `base`, or none, with nothing written, where the range check fails (R52, R55,
R157). `MemWrite(a, 1, b)` is `writeBytes s a [b]`. -/
def writeBytes (s : State) (base : Nat) (bytes : List Byte) : Option State :=
  if inRange base bytes.length then some { s with mem := s.mem.setBytes base bytes } else none

/-! ### Faults -/

/-- The code of a fault kind at the `fault_kind` port (R210, R225). -/
def FaultKind.code : FaultKind → BitVec 3
  | .none => 0
  | .fetchOutOfRange => 1
  | .memOutOfRange => 2
  | .stackOverflow => 3
  | .stackUnderflow => 4
  | .keyIndexOutOfRange => 5

/-- Fault entry (R211), the one operation that raises: halted and the record are written, with no opcode for a fetch
fault. Every other part of the core's state is unspecified from here on (R213, I2), so it is a free value (log 2); the
parameters (R10) are no state and stay. -/
def raiseFault (kind : FaultKind) (faultPc : Word) (opcode : Option Word) (s : State) : State :=
  let free := Config.afterFault s.stack.capacity s.freeCount
  { mem := ⟨s.mem.font, Cells.ofBytes s.mem.font free.mem⟩, v := free.v, ireg := free.ireg, pc := free.pc,
    stack := ⟨s.stack.capacity, free.stack, free.sp, s.stack.capacityOk⟩,
    dt := free.dt, st := free.st, fb := free.fb, dirty := free.dirty, keys := free.keys,
    halted := true, faultKind := kind, faultPc := faultPc,
    faultOpcode := opcode.getD 0x0000#16, faultOpcodeValid := opcode.isSome,
    randIn := s.randIn, freeCount := s.freeCount + 1, diag := s.diag }

/-- `ipc` inside Execute: pc has been advanced by 2 (R84; log 5). -/
def ipc (s : State) : Word := s.pc - 2#16

/-- `raise K(fault_pc = ipc, fault_opcode = w)` by the instruction i, whose word w is (R84, R211; log 5). -/
def raiseBy (i : Instr) (kind : FaultKind) (s : State) : Result :=
  .next (raiseFault kind (ipc s) (some (encode i)) s)

/-- The reset transaction (R225, R244): the construction state for the core's parameters, at any time. There is no return
from a fault; only this clears it (R214). What the model owns of the outside, the pending draws and the choice of free
values, goes on (log 15). -/
def construct (s : State) : State := { State.resetOf s.params with randIn := s.randIn, freeCount := s.freeCount }

/-! ### The call stack -/

/-- stack[k] (R12), or none at STACK_CAPACITY and above. -/
def CallStack.entry (c : CallStack) (k : Nat) : Option Word := c.entries[k]?

/-- stack[SP] <- w, then SP <- SP + 1, where the stack is not full (R103). -/
def CallStack.push (c : CallStack) (w : Word) (h : c.sp.val < c.capacity) : CallStack :=
  { c with entries := c.entries.set c.sp.val w h, sp := ⟨c.sp.val + 1, by omega⟩ }

/-- stack[SP - 1], where the stack is not empty (R101). -/
def CallStack.top (c : CallStack) (h : 0 < c.sp.val) : Word := c.entries[c.sp.val - 1]'(by omega)

/-- SP <- SP - 1; the entry popped keeps its value (R101). -/
def CallStack.pop (c : CallStack) : CallStack := { c with sp := ⟨c.sp.val - 1, by omega⟩ }

/-- CALL's push and jump (R103): a full stack faults, else the advanced pc is saved in the next free slot. -/
def pushCall (i : Instr) (target : Word) (s : State) : Result :=
  if h : s.stack.sp.val < s.stack.capacity then .next { s with stack := s.stack.push s.pc h, pc := target }
  else raiseBy i .stackOverflow s

/-- RET's pop and jump (R101): an empty stack faults; the entry popped keeps its value. -/
def popReturn (i : Instr) (s : State) : Result :=
  if h : 0 < s.stack.sp.val then .next { s with stack := s.stack.pop, pc := s.stack.top h }
  else raiseBy i .stackUnderflow s

/-! ### The frame buffer -/

/-- FB[x mod 64][y mod 32] (R30, R170: toroidal addressing). -/
def FrameBuffer.pixel (fb : FrameBuffer) (x y : Nat) : Bool :=
  (fb[y % 32]'(Nat.mod_lt _ (by decide)))[x % 64]'(Nat.mod_lt _ (by decide))

/-- FB[x mod 64][y mod 32] <- not FB[x mod 64][y mod 32] (R170, R172). -/
def FrameBuffer.flip (fb : FrameBuffer) (x y : Nat) : FrameBuffer :=
  fb.set (y % 32)
    ((fb[y % 32]'(Nat.mod_lt _ (by decide))).set (x % 64) (!FrameBuffer.pixel fb x y) (Nat.mod_lt _ (by decide)))
    (Nat.mod_lt _ (by decide))

/-- A frame buffer with every pixel false (R171). -/
def FrameBuffer.clear : FrameBuffer := Vector.replicate 32 (Vector.replicate 64 false)

/-- What a draw carries along: the pixels, and whether a set bit has met a set pixel (R172). -/
structure Canvas where
  fb  : FrameBuffer
  hit : Bool
  deriving DecidableEq, Repr

/-- One sprite bit at column x and row y: a clear bit does nothing, a set bit records a collision and flips (R172). -/
def drawBit (bit : Bool) (x y : Nat) (c : Canvas) : Canvas :=
  if bit then { fb := FrameBuffer.flip c.fb x y, hit := c.hit || FrameBuffer.pixel c.fb x y } else c

/-- One sprite row, bit 7 at column x and bit 0 at column x + 7 (R170, R172). -/
def drawRow (row : Byte) (x y : Nat) (c : Canvas) : Canvas :=
  (List.range 8).foldl (fun c k => drawBit (row.getLsbD (7 - k)) (x + k) y c) c

/-- The sprite rows in order, the first at row y (R172). -/
def drawRows (x : Nat) : List Byte → Nat → Canvas → Canvas
  | [], _, c => c
  | row :: rows, y, c => drawRows x rows (y + 1) (drawRow row x y c)

/-! ### The random draw -/

/-- `Rand()` (R10, R132, D15): the draw the host has put on `rand_in`, or a free value where it has put none (log 3). -/
def rand (s : State) : Byte × State :=
  match s.randIn with
  | b :: rest => (b, { s with randIn := rest })
  | [] => (Config.randByte s.freeCount, { s with freeCount := s.freeCount + 1 })

end Sys2Proof.Machine
end

