-- ==== Sys2Proof/Machine/Operands.lean ====
section
/-!
DEFINITION. Every operand form the instructions use (spec/30_encoding.md R82, R83): registers by number, the 12-bit
address zero-extended, the address I + k, the key latch by index, and the skip (spec/41_control_flow.md R100).
-/

namespace Sys2Proof.Machine

/-- V[x] (R12, R21). -/
def State.reg (s : State) (x : RegNo) : Byte := s.v[x.toNat]'x.isLt

/-- V[x] <- b (R12, R21). -/
def State.setReg (s : State) (x : RegNo) (b : Byte) : State := { s with v := s.v.set x.toNat b x.isLt }

/-- zext_16(NNN) (R83). -/
def addrOperand (nnn : Addr12) : Word := nnn.zeroExtend 16

/-- The address I, an unbounded integer, to which an access adds its offset (R51, R150). -/
def State.base (s : State) : Nat := s.ireg.toNat

/-- V[0] to V[x] in ascending order (R155). -/
def State.regsUpTo (s : State) (x : RegNo) : List Byte := s.v.toList.take (x.toNat + 1)

/-- V[k] <- bytes[k] for each byte given, V[0] first (R156). -/
def State.loadRegs (s : State) (bytes : List Byte) : State :=
  { s with v := Vector.ofFn fun k => (bytes[k.val]?).getD s.v[k] }

/-- keys[k] (R32, R190). -/
def State.key (s : State) (k : BitVec 4) : Bool := s.keys[k.toNat]'k.isLt

/-- The lowest pressed key among 0x0 to 0xE, if one is pressed (R194, C6). -/
def State.firstKey (s : State) : Option Byte :=
  ((List.range 15).find? fun k => s.key (BitVec.ofNat 4 k)).map (BitVec.ofNat 8)

/-- The key latch entry that V[x] names, or none above 0xF (R197). -/
def State.keyAt (s : State) (x : RegNo) : Option Bool :=
  if (s.reg x).toNat ≤ 0xF then some (s.key ((s.reg x).setWidth 4)) else none

/-- pc <- target (R12). -/
def State.setPc (s : State) (target : Word) : State := { s with pc := target }

/-- A skip (R100): pc <- pc + 2 if the condition holds. -/
def State.skipIf (s : State) (cond : Bool) : State := if cond then s.setPc (s.pc + 2#16) else s

end Sys2Proof.Machine
end

