-- ==== Sys2Proof/Machine/Flags.lean ====
section
/-!
DEFINITION. Every flag VF is given as a side effect (spec/10_state.md R22, spec/42_alu.md R120, R133,
spec/44_display.md R172): carry, no-borrow, the bit shifted out, collision.
-/

namespace Sys2Proof.Machine

/-- 1 if the condition holds, else 0 (R133). -/
def flagByte (cond : Bool) : Byte := if cond then 0x01#8 else 0x00#8

/-- The carry of a + b (R127). -/
def carry (a b : Byte) : Bool := decide (256 ≤ a.toNat + b.toNat)

/-- The no-borrow flag of a - b: equal operands give true (R120, R128, R130). -/
def noBorrow (a b : Byte) : Bool := decide (b.toNat ≤ a.toNat)

/-- The bit a right shift by one shifts out (R129). -/
def lowBit (a : Byte) : Bool := a.getLsbD 0

/-- The bit a left shift by one shifts out (R131). -/
def highBit (a : Byte) : Bool := a.getLsbD 7

/-- VF <- 1 or 0 (R22). -/
def State.setFlag (s : State) (cond : Bool) : State := s.setReg vF (flagByte cond)

end Sys2Proof.Machine
end

