-- ==== Sys2Proof/Machine/Alu.lean ====
section
/-!
DEFINITION. Register and ALU instructions (spec/42_alu.md): results modulo 256 (R120), the writes of each instruction in
the order the spec gives, each reading what the last one left (spec/00_scope.md R13).
-/

namespace Sys2Proof.Machine

/-- 6XNN LD VX, NN (R121). -/
def execLdVxNn (x : RegNo) (nn : Byte) (s : State) : Result := .next (s.setReg x nn)

/-- 7XNN ADD VX, NN (R122): no flag. -/
def execAddVxNn (x : RegNo) (nn : Byte) (s : State) : Result := .next (s.setReg x (s.reg x + nn))

/-- 8XY0 LD VX, VY (R123). -/
def execLdVxVy (x y : RegNo) (s : State) : Result := .next (s.setReg x (s.reg y))

/-- 8XY1 OR VX, VY (R124): VF is not touched. -/
def execOrVxVy (x y : RegNo) (s : State) : Result := .next (s.setReg x (s.reg x ||| s.reg y))

/-- 8XY2 AND VX, VY (R125). -/
def execAndVxVy (x y : RegNo) (s : State) : Result := .next (s.setReg x (s.reg x &&& s.reg y))

/-- 8XY3 XOR VX, VY (R126). -/
def execXorVxVy (x y : RegNo) (s : State) : Result := .next (s.setReg x (s.reg x ^^^ s.reg y))

/-- 8XY4 ADD VX, VY (R127): the sum, then the carry. -/
def execAddVxVy (x y : RegNo) (s : State) : Result :=
  .next ((s.setReg x (s.reg x + s.reg y)).setFlag (carry (s.reg x) (s.reg y)))

/-- 8XY5 SUB VX, VY (R128): X - Y, then the no-borrow flag. -/
def execSubVxVy (x y : RegNo) (s : State) : Result :=
  .next ((s.setReg x (s.reg x - s.reg y)).setFlag (noBorrow (s.reg x) (s.reg y)))

/-- 8XY7 SUBN VX, VY (R130): Y - X into X, then the no-borrow flag. -/
def execSubnVxVy (x y : RegNo) (s : State) : Result :=
  .next ((s.setReg x (s.reg y - s.reg x)).setFlag (noBorrow (s.reg y) (s.reg x)))

/-- A shift (R129, R131): the bit shifted out goes to VF first, then V[x] is shifted, read as the flag write left it.
With `vfLast` the value from before the flag write is shifted (I10). -/
def shiftReg (vfLast : Bool) (out : Byte → Bool) (shift : Byte → Byte) (x : RegNo) (s : State) : State :=
  let flagged := s.setFlag (out (s.reg x))
  flagged.setReg x (shift (if vfLast then s.reg x else flagged.reg x))

/-- 8XY6 SHR VX (R129): Y is not read. -/
def execShrVx (x _y : RegNo) (s : State) : Result :=
  .next (shiftReg Config.shiftVFLast lowBit (fun a => a >>> 1) x s)

/-- 8XYE SHL VX (R131): Y is not read. -/
def execShlVx (x _y : RegNo) (s : State) : Result :=
  .next (shiftReg Config.shiftVFLast highBit (fun a => a <<< 1) x s)

/-- CXNN RND VX, NN (R132). -/
def execRndVxNn (x : RegNo) (nn : Byte) (s : State) : Result :=
  .next ((rand s).2.setReg x ((rand s).1 &&& nn))

end Sys2Proof.Machine
end

