-- ==== Sys2Proof/Machine/ControlFlow.lean ====
section
/-!
DEFINITION. Control flow (spec/41_control_flow.md). On entry pc = ipc + 2 (spec/30_encoding.md R84).
-/

namespace Sys2Proof.Machine

/-- 00EE RET (R101). -/
def execRet (s : State) : Result := popReturn .ret s

/-- 1NNN JP NNN (R102). -/
def execJpNnn (nnn : Addr12) (s : State) : Result := .next (s.setPc (addrOperand nnn))

/-- 2NNN CALL NNN (R103). -/
def execCallNnn (nnn : Addr12) (s : State) : Result := pushCall (.callNnn nnn) (addrOperand nnn) s

/-- 3XNN SE VX, NN (R104). -/
def execSeVxNn (x : RegNo) (nn : Byte) (s : State) : Result := .next (s.skipIf (s.reg x == nn))

/-- 4XNN SNE VX, NN (R105). -/
def execSneVxNn (x : RegNo) (nn : Byte) (s : State) : Result := .next (s.skipIf (s.reg x != nn))

/-- 5XY0 SE VX, VY (R106). -/
def execSeVxVy (x y : RegNo) (s : State) : Result := .next (s.skipIf (s.reg x == s.reg y))

/-- 9XY0 SNE VX, VY (R107). -/
def execSneVxVy (x y : RegNo) (s : State) : Result := .next (s.skipIf (s.reg x != s.reg y))

/-- BNNN JP V0, NNN (R108): the base is always V0, and the sum is not masked. -/
def execJpV0Nnn (nnn : Addr12) (s : State) : Result :=
  .next (s.setPc ((s.reg 0x0#4).zeroExtend 16 + addrOperand nnn))

end Sys2Proof.Machine
end

