-- ==== Sys2Proof/Machine/Display.lean ====
section
/-!
DEFINITION. The frame buffer instructions (spec/44_display.md). Each sets the dirty flag; the engine never clears it
(spec/10_state.md R31).
-/

namespace Sys2Proof.Machine

/-- 00E0 CLS (R171): VF is unchanged. -/
def execCls (s : State) : Result := .next { s with fb := FrameBuffer.clear, dirty := true }

/-- The state a draw leaves (R172): the pixels, the dirty flag, and VF as the collision flag. -/
def paint (rows : List Byte) (ox oy : Nat) (s : State) : State :=
  let c := drawRows ox rows oy ⟨s.fb, false⟩
  { s.setFlag c.hit with fb := c.fb, dirty := true }

/-- A draw (R172): the whole range I to I + N - 1 is checked, VF is cleared, the rows are drawn. The origin is read
before the clear where `originFirst`, else after it (I11). With N = 0 nothing is read and nothing faults. -/
def drawSprite (originFirst : Bool) (i : Instr) (x y : RegNo) (n : Nibble) (s : State) : Result :=
  match readBytes s s.base n.toNat with
  | none => raiseBy i .memOutOfRange s
  | some rows =>
    let cleared := s.setFlag false
    let origin := if originFirst then s else cleared
    .next (paint rows (origin.reg x).toNat (origin.reg y).toNat cleared)

/-- DXYN DRW VX, VY, N (R172). -/
def execDrwVxVyN (x y : RegNo) (n : Nibble) (s : State) : Result :=
  drawSprite Config.originBeforeClear (.drwVxVyN x y n) x y n s

end Sys2Proof.Machine
end

