-- ==== Sys2Proof/Machine/IndexMemory.lean ====
section
/-!
DEFINITION. The index register and memory instructions (spec/43_index_memory.md). I is never masked to 12 bits
(spec/10_state.md R23), and no memory instruction changes it (R150).
-/

namespace Sys2Proof.Machine

/-- ANNN LD I, NNN (R151). -/
def execLdINnn (nnn : Addr12) (s : State) : Result := .next { s with ireg := addrOperand nnn }

/-- FX1E ADD I, VX (R152): modulo 2^16, no flag. -/
def execAddIVx (x : RegNo) (s : State) : Result := .next { s with ireg := s.ireg + (s.reg x).zeroExtend 16 }

/-- The address of the glyph for the value d: 5 * d, unmasked unless `mask` (R153, I14). -/
def glyphAddress (mask : Bool) (d : Byte) : Word := 5#16 * (if mask then d &&& 0x0F#8 else d).zeroExtend 16

/-- FX29 LD F, VX (R153). -/
def execLdFVx (x : RegNo) (s : State) : Result := .next { s with ireg := glyphAddress Config.glyphMask (s.reg x) }

/-- The hundreds, tens and ones of v (R154). -/
def bcdDigits (v : Byte) : List Byte :=
  [BitVec.ofNat 8 (v.toNat / 100), BitVec.ofNat 8 (v.toNat / 10 % 10), BitVec.ofNat 8 (v.toNat % 10)]

/-- A store by the instruction i from address I, or MEM_OUT_OF_RANGE with nothing moved (R150, R157). -/
def storeAtI (i : Instr) (bytes : List Byte) (s : State) : Result :=
  match writeBytes s s.base bytes with
  | some t => .next t
  | none => raiseBy i .memOutOfRange s

/-- FX33 LD B, VX (R154). -/
def execLdBVx (x : RegNo) (s : State) : Result := storeAtI (.ldBVx x) (bcdDigits (s.reg x)) s

/-- FX55 LD [I], VX (R155): V[0] to V[x], ascending. -/
def execLdIndVx (x : RegNo) (s : State) : Result := storeAtI (.ldIndVx x) (s.regsUpTo x) s

/-- FX65 LD VX, [I] (R156): into V[0] to V[x], ascending, or MEM_OUT_OF_RANGE with nothing moved (R157). -/
def execLdVxInd (x : RegNo) (s : State) : Result :=
  match readBytes s s.base (x.toNat + 1) with
  | some bytes => .next (s.loadRegs bytes)
  | none => raiseBy (.ldVxInd x) .memOutOfRange s

end Sys2Proof.Machine
end

