-- ==== Sys2Proof/Machine/InputTimers.lean ====
section
/-!
DEFINITION. The key and timer instructions (spec/45_input_timers.md). The latch and the timers are level values that
cannot change inside a step (R190, spec/60_exceptions.md R228).
-/

namespace Sys2Proof.Machine

/-- A key skip (R191, R192): skip if the key V[x] names is `pressed`, or KEY_INDEX_OUT_OF_RANGE above 0xF (R197). -/
def skipOnKey (i : Instr) (pressed : Bool) (x : RegNo) (s : State) : Result :=
  match s.keyAt x with
  | some k => .next (s.skipIf (k == pressed))
  | none => raiseBy i .keyIndexOutOfRange s

/-- EX9E SKP VX (R191). -/
def execSkpVx (x : RegNo) (s : State) : Result := skipOnKey (.skpVx x) true x s

/-- EXA1 SKNP VX (R192). -/
def execSknpVx (x : RegNo) (s : State) : Result := skipOnKey (.sknpVx x) false x s

/-- FX07 LD VX, DT (R193). -/
def execLdVxDt (x : RegNo) (s : State) : Result := .next (s.setReg x s.dt)

/-- FX0A LD VX, K (R194): the lowest pressed key among 0x0 to 0xE, or pc back to this instruction. -/
def execLdVxK (x : RegNo) (s : State) : Result :=
  match s.firstKey with
  | some k => .next (s.setReg x k)
  | none => .next (s.setPc (s.pc - 2#16))

/-- FX15 LD DT, VX (R195). -/
def execLdDtVx (x : RegNo) (s : State) : Result := .next { s with dt := s.reg x }

/-- FX18 LD ST, VX (R196). -/
def execLdStVx (x : RegNo) (s : State) : Result := .next { s with st := s.reg x }

end Sys2Proof.Machine
end

