-- ==== Sys2Proof/Machine/Cycle.lean ====
section
/-!
DEFINITION. The parts of the step cycle (spec/30_encoding.md R80, R84, R86): fetch, advance, the fetch fault, the
unrecognized word, and the step refused by a halted core (spec/60_exceptions.md R212).
-/

namespace Sys2Proof.Machine

/-- The two bytes at pc and pc + 1, or none if either is above 0xFFF (R53, R80). -/
def fetch (s : State) : Option (List Byte) := readBytes s s.pc.toNat 2

/-- The fetched word, big-endian (R53, R80); `none` where the fetch fails. -/
def fetchWord (s : State) : Option Word :=
  match fetch s with
  | some (hi :: lo :: _) => some (wordOfBytes hi lo)
  | _ => none

/-- pc <- ipc + 2, before anything executes (R84, R245). -/
def advance (s : State) : State := s.setPc (s.pc + 2#16)

/-- The diagnostic port carries no event until this step emits one (R216, R225; log 4). -/
def quiet (s : State) : State := { s with diag := none }

/-- The fetch fault (R80, R210, R211): fault_pc is pc and there is no opcode. -/
def fetchFault (s : State) : Result := .next (raiseFault .fetchOutOfRange s.pc none s)

/-- An unrecognized word w at the address `at` (R86, R216): pc is already advanced, `Diag(w, ipc)` goes out, nothing else
changes. A model that takes strictDecode as false refuses the word (I9). -/
def unrecognized (strict : Bool) (w : Word) (addr : Word) (s : State) : Result :=
  if strict then .next { s with diag := some ⟨w, addr⟩ } else .refused (.looseDecode w)

/-- A step issued to a halted core (R212, I20): nothing runs and nothing changes; the host is told. -/
def haltedStep (s : State) : Result :=
  .fault (.coreHalted s.faultKind s.faultPc s.faultOpcode s.faultOpcodeValid)

/-- The bytes of a word stored at the pc (R53), where fetch finds them. -/
def placeWord (s : State) (w : Nat) : State := (writeBytes s s.pc.toNat (tableBytes w)).getD s

end Sys2Proof.Machine
end

