-- ==== Sys2Proof/Machine/Step.lean ====
section
/-!
DEFINITION. `Step()` of spec/30_encoding.md R84.
-/

namespace Sys2Proof.Machine

/-- One step (R84): refused when halted, else fetch, advance, decode, and execute or report. -/
def step (s : State) : Host.Outcome State Fault Refusal :=
  if s.halted then haltedStep s
  else
    match fetchWord s with
    | none => fetchFault (quiet s)
    | some w =>
      match decodeWord w with
      | .ok i => exec i (advance (quiet s))
      | .error _ => unrecognized Config.strictDecode w s.pc (advance (quiet s))

/-- s with the one-word instruction w (bit 0 its least significant) stored where `step` fetches next: at pc and pc + 1,
big-endian. -/
def State.withFetchWord (s : State) (_nbits w : Nat) : State := placeWord s w

end Sys2Proof.Machine
end

