-- ==== Sys2Proof/Machine/HostPort.lean ====
section
/-!
DEFINITION. The host's transactions and the output ports (spec/60_exceptions.md R220, R225, R228;
spec/70_reset_and_hazards.md R242 to R244, R251). Each transaction is atomic; a list of them is one interleaving of
steps, ticks and the rest.
-/

namespace Sys2Proof.Machine

/-! ### Bits -/

/-- Bits, the least significant first, as a number. -/
def bitsToNat : List Bool → Nat
  | [] => 0
  | b :: bs => (if b then 1 else 0) + 2 * bitsToNat bs

/-! ### Transactions -/

/-- A timer counted down by at most 1, never below 0 (R220). -/
def countDown (t : Byte) : Byte := if 0 < t.toNat then t - 1#8 else t

/-- `Tick()` (R220): both timers together, nothing else, on a halted core too (log 19). As in every transaction that is no
step, the diagnostic pulse is over (R216, R225; log 4). -/
def tick (s : State) : State := { quiet s with dt := countDown s.dt, st := countDown s.st }

/-- Set keys (R225, R32): all 16 entries are overwritten, key k by bit k. -/
def setKeys (keysIn : BitVec 16) (s : State) : State :=
  { quiet s with keys := Vector.ofFn fun k => keysIn.getLsbD k.val }

/-- The latch input of a host that supplies bytes: a nonzero byte is a pressed key (R32, D16, I16). -/
def keysOfBytes (bytes : Vector Byte 16) : BitVec 16 :=
  BitVec.ofNat 16 (bitsToNat (bytes.toList.map fun b => b != 0x00#8))

/-- Consume dirty (R31, R225): no state but `dirty`. -/
def consumeDirty (s : State) : State := { quiet s with dirty := false }

/-- Load byte (R225): mem[0x200 + offset] <- data, offsets below 3584 only. -/
def loadByte (offset : Addr12) (data : Byte) (s : State) : Result :=
  if loadOffsetOk offset then .next { quiet s with mem := s.mem.set (Config.programBase + offset.toNat) data }
  else .refused .loadOutOfWindow

/-- `Load(b)` (R242): the image verbatim at 0x200; an image that does not fit is refused and nothing is loaded. -/
def loadImage (image : List Byte) (s : State) : Result :=
  if imageFits image then .next { quiet s with mem := s.mem.setBytes Config.programBase image }
  else .refused .imageTooLarge

/-- The step transaction (R225): `rand_in` is this step's draw, used only if the word is CXNN. -/
def stepWith (randIn : Byte) (s : State) : Result := step { s with randIn := [randIn] }

/-! ### A host session: every interleaving (R228) -/

/-- The transactions that change state (R225). -/
inductive HostOp where
  /-- the `reset` input -/
  | construct
  /-- `load_we` with `load_offset` and `load_data` -/
  | loadByte (offset : Addr12) (data : Byte)
  /-- `keys_in` -/
  | setKeys (keysIn : BitVec 16)
  /-- `step` with `rand_in` -/
  | step (randIn : Byte)
  /-- `tick` -/
  | tick
  /-- `dirty_clear` -/
  | consumeDirty
  deriving DecidableEq, Repr

/-- The core, and whether a step has run since construction: from then on no load is admitted (R242, D20; log 11). -/
structure Session where
  core    : State
  started : Bool
  deriving DecidableEq, Repr

/-- The session at power-on, after the first construct (R243). -/
def Session.powerOn : Session := ⟨State.reset, false⟩

/-- A result of the core as a result of the session. -/
def Session.resume (started : Bool) : Result → Host.Outcome Session Fault Refusal
  | .next s => .next ⟨s, started⟩
  | .fault r => .fault r
  | .refused r => .refused r

/-- One transaction (R225). A step to a halted core answers the fault and leaves the host the session it had (R212). -/
def Session.apply (op : HostOp) (h : Session) : Host.Outcome Session Fault Refusal :=
  match op with
  | .construct => .next ⟨Machine.construct h.core, false⟩
  | .loadByte offset data =>
    if h.started then .refused .loadAfterFirstStep else Session.resume false (Machine.loadByte offset data h.core)
  | .setKeys keysIn => .next { h with core := Machine.setKeys keysIn h.core }
  | .step randIn => Session.resume true (stepWith randIn h.core)
  | .tick => .next { h with core := Machine.tick h.core }
  | .consumeDirty => .next { h with core := Machine.consumeDirty h.core }

/-- The loader's whole image (R242): nothing once a step has run, else `Load(b)`. -/
def Session.load (image : List Byte) (h : Session) : Host.Outcome Session Fault Refusal :=
  if h.started then .refused .loadAfterFirstStep else Session.resume false (loadImage image h.core)

/-- Transactions one after another, up to the first that is refused or faults (R228). -/
def Session.run : List HostOp → Session → Host.Outcome Session Fault Refusal
  | [], h => .next h
  | op :: ops, h =>
    match Session.apply op h with
    | .next h' => Session.run ops h'
    | .fault r => .fault r
    | .refused r => .refused r

/-! ### Output ports -/

/-- `fb_out`: bit 64*y + x is FB[x][y] (R225, D32). -/
def fbOut (s : State) : BitVec 2048 := BitVec.ofNat 2048 (bitsToNat (s.fb.toList.flatMap Vector.toList))

/-- The output ports of R225, with their widths. -/
structure Ports where
  fb               : BitVec 2048
  dirty            : Bool
  dt               : Byte
  st               : Byte
  halted           : Bool
  faultKind        : BitVec 3
  faultPc          : Word
  faultOpcode      : Word
  faultOpcodeValid : Bool
  diagValid        : Bool
  diagOpcode       : Word
  diagAddr         : Word
  deriving DecidableEq, Repr

/-- What the host reads between transactions (R225); reading changes nothing. The opcode and address of a diagnostic that
is not valid read 0 (log 4). -/
def ports (s : State) : Ports where
  fb               := fbOut s
  dirty            := s.dirty
  dt               := s.dt
  st               := s.st
  halted           := s.halted
  faultKind        := s.faultKind.code
  faultPc          := s.faultPc
  faultOpcode      := s.faultOpcode
  faultOpcodeValid := s.faultOpcodeValid
  diagValid        := s.diag.isSome
  diagOpcode       := (s.diag.map Diag.opcode).getD 0#16
  diagAddr         := (s.diag.map Diag.addr).getD 0#16

end Sys2Proof.Machine
end

