-- ==== Sys2Proof/Safety.lean ====
section
/-!
DEFINITION. The words claims are stated in: the instruction a state is about to run, what an instruction leaves unchanged
(spec/00_scope.md R14), a fault record, the invariant of the machine, and the ends of a run (spec/60_exceptions.md R212,
R229).
-/

namespace Sys2Proof.Machine

/-- The instruction the next step decodes, if the fetch succeeds and the word is one (R80, R85). -/
def nextInstr (s : State) : Option Instr :=
  match fetchWord s with
  | none => none
  | some w =>
    match decodeWord w with
    | .ok i => some i
    | .error _ => none

/-- The five fields of the fault status are the same (R33). -/
def SameRecord (s t : State) : Prop :=
  t.halted = s.halted ∧ t.faultKind = s.faultKind ∧ t.faultPc = s.faultPc ∧ t.faultOpcode = s.faultOpcode ∧
    t.faultOpcodeValid = s.faultOpcodeValid

/-- What an instruction may write beside pc: the registers named, I, the call stack with SP, a timer, the display with
its dirty flag, the draws, and `store.2` bytes of memory from address `store.1`. -/
structure Footprint where
  regs    : List RegNo := []
  index   : Bool := false
  stack   : Bool := false
  dt      : Bool := false
  st      : Bool := false
  display : Bool := false
  draws   : Bool := false
  store   : Nat × Nat := (0, 0)

/-- The frame rule (R14): everything outside the footprint, and the parameters, keep their value; pc may change. -/
def Frame (f : Footprint) (s t : State) : Prop :=
  (∀ r, r ∉ f.regs → t.reg r = s.reg r) ∧
  (f.index = false → t.ireg = s.ireg) ∧
  (f.stack = false → t.stack = s.stack) ∧
  (f.dt = false → t.dt = s.dt) ∧
  (f.st = false → t.st = s.st) ∧
  (f.display = false → t.fb = s.fb ∧ t.dirty = s.dirty) ∧
  (f.draws = false → t.randIn = s.randIn ∧ t.freeCount = s.freeCount) ∧
  (∀ a, a < f.store.1 ∨ f.store.1 + f.store.2 ≤ a → t.mem.get a = s.mem.get a) ∧
  t.keys = s.keys ∧ SameRecord s t ∧ t.diag = s.diag ∧ t.params = s.params

/-- The registers V[0] to V[x] (R156). -/
def regsUpToNo (x : RegNo) : List RegNo := (List.range (x.toNat + 1)).map (BitVec.ofNat 4)

/-- What each instruction may write when it does not fault (R22, R23, R27, R30, R59, and each instruction's rule). -/
def footprint : Instr → State → Footprint
  | .cls, _ => { display := true }
  | .ret, _ => { stack := true }
  | .jpNnn _, _ => {}
  | .callNnn _, _ => { stack := true }
  | .seVxNn _ _, _ => {}
  | .sneVxNn _ _, _ => {}
  | .seVxVy _ _, _ => {}
  | .ldVxNn x _, _ => { regs := [x] }
  | .addVxNn x _, _ => { regs := [x] }
  | .ldVxVy x _, _ => { regs := [x] }
  | .orVxVy x _, _ => { regs := [x] }
  | .andVxVy x _, _ => { regs := [x] }
  | .xorVxVy x _, _ => { regs := [x] }
  | .addVxVy x _, _ => { regs := [x, vF] }
  | .subVxVy x _, _ => { regs := [x, vF] }
  | .shrVx x _, _ => { regs := [x, vF] }
  | .subnVxVy x _, _ => { regs := [x, vF] }
  | .shlVx x _, _ => { regs := [x, vF] }
  | .sneVxVy _ _, _ => {}
  | .ldINnn _, _ => { index := true }
  | .jpV0Nnn _, _ => {}
  | .rndVxNn x _, _ => { regs := [x], draws := true }
  | .drwVxVyN _ _ _, _ => { regs := [vF], display := true }
  | .skpVx _, _ => {}
  | .sknpVx _, _ => {}
  | .ldVxDt x, _ => { regs := [x] }
  | .ldVxK x, _ => { regs := [x] }
  | .ldDtVx _, _ => { dt := true }
  | .ldStVx _, _ => { st := true }
  | .addIVx _, _ => { index := true }
  | .ldFVx _, _ => { index := true }
  | .ldBVx _, s => { store := (s.ireg.toNat, 3) }
  | .ldIndVx x, s => { store := (s.ireg.toNat, x.toNat + 1) }
  | .ldVxInd x, _ => { regs := regsUpToNo x }

/-- The core has halted with this record (R33, R211). -/
def Halted (kind : FaultKind) (pc : Word) (opcode : Word) (valid : Bool) (t : State) : Prop :=
  t.halted = true ∧ t.faultKind = kind ∧ t.faultPc = pc ∧ t.faultOpcode = opcode ∧ t.faultOpcodeValid = valid

/-- A fault by the instruction i, executed with pc advanced (R84, R211). -/
def FaultsWith (kind : FaultKind) (i : Instr) (s : State) : Prop :=
  ∃ t, exec i s = .next t ∧ Halted kind (s.pc - 2#16) (encode i) true t

/-- A set bit of the sprite falls on the pixel (x, y) when it is drawn at the origin (ox, oy) (R170, R172). -/
def Covers (rows : List Byte) (ox oy x y : Nat) : Prop :=
  ∃ r c, c < 8 ∧ (∃ row, rows[r]? = some row ∧ row.getLsbD (7 - c) = true) ∧ (ox + c) % 64 = x ∧ (oy + r) % 32 = y

/-- The fault kind an instruction can raise (R210). -/
def faultKindOf : Instr → FaultKind
  | .ret => .stackUnderflow
  | .callNnn _ => .stackOverflow
  | .drwVxVyN _ _ _ => .memOutOfRange
  | .ldBVx _ => .memOutOfRange
  | .ldIndVx _ => .memOutOfRange
  | .ldVxInd _ => .memOutOfRange
  | .skpVx _ => .keyIndexOutOfRange
  | .sknpVx _ => .keyIndexOutOfRange
  | .cls | .jpNnn _ | .jpV0Nnn _ | .seVxNn _ _ | .sneVxNn _ _ | .seVxVy _ _ | .sneVxVy _ _ | .ldVxNn _ _
  | .addVxNn _ _ | .ldVxVy _ _ | .orVxVy _ _ | .andVxVy _ _ | .xorVxVy _ _ | .addVxVy _ _ | .subVxVy _ _
  | .shrVx _ _ | .subnVxVy _ _ | .shlVx _ _ | .rndVxNn _ _ | .ldINnn _ | .addIVx _ | .ldFVx _ | .ldVxDt _
  | .ldVxK _ | .ldDtVx _ | .ldStVx _ => .none

/-- Instructions that write VF as a side effect, or name it as their destination (R22). -/
def WritesVF : Instr → Prop
  | .addVxVy _ _ | .subVxVy _ _ | .shrVx _ _ | .subnVxVy _ _ | .shlVx _ _ | .drwVxVyN _ _ _ => True
  | .ldVxNn x _ | .addVxNn x _ | .ldVxVy x _ | .orVxVy x _ | .andVxVy x _ | .xorVxVy x _ | .rndVxNn x _
  | .ldVxDt x | .ldVxK x | .ldVxInd x => x = vF
  | .cls | .ret | .jpNnn _ | .callNnn _ | .jpV0Nnn _ | .seVxNn _ _ | .sneVxNn _ _ | .seVxVy _ _ | .sneVxVy _ _
  | .ldINnn _ | .addIVx _ | .ldFVx _ | .ldBVx _ | .ldIndVx _ | .skpVx _ | .sknpVx _ | .ldDtVx _ | .ldStVx _ => False

/-- The fault record is coherent (R33, R210, R211): nothing in it before a fault; a fetch fault has its pc above 0xFFE
and no opcode; every other fault has its pc at or below 0xFFE and the opcode. -/
def RecordCoherent (s : State) : Prop :=
  match s.faultKind with
  | .none => s.halted = false ∧ s.faultPc = 0 ∧ s.faultOpcode = 0 ∧ s.faultOpcodeValid = false
  | .fetchOutOfRange =>
    s.halted = true ∧ 0xFFE < s.faultPc.toNat ∧ s.faultOpcode = 0 ∧ s.faultOpcodeValid = false
  | _ => s.halted = true ∧ s.faultPc.toNat ≤ 0xFFE ∧ s.faultOpcodeValid = true

/-- The invariant of the machine: memory is in its canonical form (R20), the fault record is coherent, and until a fault
pc is at most 0x10FE (R24) and every live stack entry at most 0x1000 (D8). -/
structure Inv (s : State) : Prop where
  memory : Memory.wf s.mem
  record : RecordCoherent s
  pc     : s.halted = false → s.pc.toNat ≤ 0x10FE
  stack  : s.halted = false → ∀ k w, k < s.stack.sp.val → s.stack.entry k = some w → w.toNat ≤ 0x1000

/-- A finished program (R229, D30): no fault, and the next instruction is a jump to its own address. -/
def Finished (s : State) : Prop :=
  s.halted = false ∧ ∃ nnn : Addr12, nextInstr s = some (.jpNnn nnn) ∧ s.pc = addrOperand nnn

/-- k steps from s reach no fault: every one answers a state that has not halted (R212, R229). -/
def RunsSafely : Nat → State → Prop
  | 0, s => s.halted = false
  | k + 1, s => s.halted = false ∧ ∃ t, step s = .next t ∧ RunsSafely k t

end Sys2Proof.Machine
end

