-- ==== Sys2Proof/Certificates/Slice0/Obligations.lean ====
section
/-!
DEFINITION. The statements for the provers, each after the rules of spec/ it formalises. In the statements about one
instruction s is the state Execute runs on, so pc is already ipc + 2 (spec/30_encoding.md R84).
-/

open Sys2Proof Sys2Proof.Machine

/-! ### Encoding (spec/30_encoding.md) -/

/-- No bit of an encoding is dropped: every instruction, at every operand value, is what its own word and its own two
bytes decode to (R82, R83, R85, R90). -/
def Obligations.DecodeOfEncodeIsTheInstruction : Prop :=
  ∀ (i : Instr) (rest : List Byte),
    decodeWord (encode i) = .ok i ∧ decode (encodeBytes i ++ rest) = .ok (i, rest)

/-- Each word has at most one meaning: a word that decodes is the word of what it decodes to (R85). So the word a fault
records, the encoding of the instruction that raised it, is the word that was fetched (R211). -/
def Obligations.EncodeOfDecodeIsTheWord : Prop :=
  ∀ (w : Word) (i : Instr), decodeWord w = .ok i → encode i = w

/-- The UNRECOGNIZED words are exactly the six classes of R86, under the strict decode the spec decides for (D11). -/
def Obligations.UnrecognizedWordsAreTheSixClasses : Prop :=
  ∀ w : Word, (∃ e, decodeWord w = .error e) ↔
    (w.toNat / 4096 = 0x0 ∧ w.toNat ≠ 0x00E0 ∧ w.toNat ≠ 0x00EE) ∨
    (w.toNat / 4096 = 0x5 ∧ w.toNat % 16 ≠ 0) ∨
    (w.toNat / 4096 = 0x8 ∧ w.toNat % 16 ∈ [0x8, 0x9, 0xA, 0xB, 0xC, 0xD, 0xF]) ∨
    (w.toNat / 4096 = 0x9 ∧ w.toNat % 16 ≠ 0) ∨
    (w.toNat / 4096 = 0xE ∧ w.toNat % 256 ∉ [0x9E, 0xA1]) ∨
    (w.toNat / 4096 = 0xF ∧ w.toNat % 256 ∉ [0x07, 0x0A, 0x15, 0x18, 0x1E, 0x29, 0x33, 0x55, 0x65])

/-- A few words written out from R85 decode to what they stand for: one at least of each of the 16 families, the top
nibbles 0 to F (R82). -/
def Obligations.WordsOfEveryFamilyDecode : Prop :=
  decodeWord 0x00E0#16 = .ok .cls ∧ decodeWord 0x00EE#16 = .ok .ret ∧
  decodeWord 0x1234#16 = .ok (.jpNnn 0x234#12) ∧ decodeWord 0x220A#16 = .ok (.callNnn 0x20A#12) ∧
  decodeWord 0x3005#16 = .ok (.seVxNn 0 0x05#8) ∧ decodeWord 0x4F06#16 = .ok (.sneVxNn 0xF 0x06#8) ∧
  decodeWord 0x5120#16 = .ok (.seVxVy 1 2) ∧ decodeWord 0x6AB6#16 = .ok (.ldVxNn 0xA 0xB6#8) ∧
  decodeWord 0x7001#16 = .ok (.addVxNn 0 0x01#8) ∧ decodeWord 0x8014#16 = .ok (.addVxVy 0 1) ∧
  decodeWord 0x8016#16 = .ok (.shrVx 0 1) ∧ decodeWord 0x9120#16 = .ok (.sneVxVy 1 2) ∧
  decodeWord 0xA300#16 = .ok (.ldINnn 0x300#12) ∧ decodeWord 0xBFFF#16 = .ok (.jpV0Nnn 0xFFF#12) ∧
  decodeWord 0xC10F#16 = .ok (.rndVxNn 1 0x0F#8) ∧ decodeWord 0xD125#16 = .ok (.drwVxVyN 1 2 5) ∧
  decodeWord 0xE3A1#16 = .ok (.sknpVx 3) ∧ decodeWord 0xF265#16 = .ok (.ldVxInd 2) ∧
  decodeWord 0x0123#16 = .error .family0

/-! ### The step (spec/30_encoding.md R80, R84, R86; spec/60_exceptions.md R212) -/

/-- When the two bytes at pc decode to i, the step is i executed with pc past it and the diagnostic port silent (R84). -/
def Obligations.StepRunsTheDecodedInstruction : Prop :=
  ∀ (s : State) (i : Instr), s.halted = false → s.pc.toNat + 1 ≤ 0xFFF →
    decodeWord (s.mem.get s.pc.toNat ++ s.mem.get (s.pc.toNat + 1)) = .ok i →
    step s = exec i { s with pc := s.pc + 2#16, diag := none }

/-- An UNRECOGNIZED word advances pc, emits one diagnostic with the word and its address, and changes nothing else (R84,
R86, R216; the spec's decisions D11 and D12; the port field is the model's, log 4). -/
def Obligations.UnrecognizedWordOnlyAdvancesAndReports : Prop :=
  ∀ (s : State) (w : Word) (e : DecodeError), s.halted = false → s.pc.toNat + 1 ≤ 0xFFF →
    w = s.mem.get s.pc.toNat ++ s.mem.get (s.pc.toNat + 1) → decodeWord w = .error e →
    step s = .next { s with pc := s.pc + 2#16, diag := some ⟨w, s.pc⟩ }

/-- The fetch reads the word at pc big-endian, or halts with FETCH_OUT_OF_RANGE, fault_pc = pc and no opcode, exactly when
pc > 0xFFE (R80; the hard fault is the spec's decision D4, and fault entry answers a next state by log 1). -/
def Obligations.FetchIsBigEndianOrFaults : Prop :=
  ∀ s : State, s.halted = false →
    (s.pc.toNat ≤ 0xFFE → ∃ w, fetchWord s = some w ∧
      w.toNat = 256 * (s.mem.get s.pc.toNat).toNat + (s.mem.get (s.pc.toNat + 1)).toNat) ∧
    (0xFFE < s.pc.toNat → ∃ t, step s = .next t ∧ Halted .fetchOutOfRange s.pc 0#16 false t)

/-- A step to a halted core runs nothing: it has no next state, and reports the record (R212; the spec's decision
D9; that it is the model's stop is log 1). -/
def Obligations.HaltedCoreRefusesEveryStep : Prop :=
  ∀ (kind : FaultKind) (pc op : Word) (valid : Bool) (s : State), Halted kind pc op valid s →
    step s = .fault (.coreHalted kind pc op valid)

/-! ### Control flow (spec/41_control_flow.md) -/

/-- The four skips on registers: net 4 bytes when the condition holds, else 2; nothing else. 5XYn and 9XYn with n ≠ 0 are
UNRECOGNIZED (R104 to R107). -/
def Obligations.RegisterSkips : Prop :=
  ∀ (x y : RegNo) (nn : Byte) (s : State),
    (decodeWord (0x3#4 ++ x ++ nn) = .ok (.seVxNn x nn) ∧
      ∃ t, exec (.seVxNn x nn) s = .next t ∧
        t.pc = (if s.reg x = nn then s.pc + 2#16 else s.pc) ∧ Frame {} s t) ∧
    (decodeWord (0x4#4 ++ x ++ nn) = .ok (.sneVxNn x nn) ∧
      ∃ t, exec (.sneVxNn x nn) s = .next t ∧
        t.pc = (if s.reg x = nn then s.pc else s.pc + 2#16) ∧ Frame {} s t) ∧
    (decodeWord (0x5#4 ++ x ++ y ++ 0x0#4) = .ok (.seVxVy x y) ∧
      ∃ t, exec (.seVxVy x y) s = .next t ∧
        t.pc = (if s.reg x = s.reg y then s.pc + 2#16 else s.pc) ∧ Frame {} s t) ∧
    (decodeWord (0x9#4 ++ x ++ y ++ 0x0#4) = .ok (.sneVxVy x y) ∧
      ∃ t, exec (.sneVxVy x y) s = .next t ∧
        t.pc = (if s.reg x = s.reg y then s.pc else s.pc + 2#16) ∧ Frame {} s t) ∧
    (∀ n : Nibble, n ≠ 0#4 → decodeWord (0x5#4 ++ x ++ y ++ n) = .error .family5 ∧
      decodeWord (0x9#4 ++ x ++ y ++ n) = .error .family9)

/-- JP NNN and JP V0, NNN: the target is NNN, or V0 + NNN with no wrap and no mask (R102, R108). -/
def Obligations.JumpTargets : Prop :=
  ∀ (nnn : Addr12) (s : State),
    (decodeWord (0x1#4 ++ nnn) = .ok (.jpNnn nnn) ∧
      ∃ t, exec (.jpNnn nnn) s = .next t ∧ t.pc.toNat = nnn.toNat ∧ Frame {} s t) ∧
    (decodeWord (0xB#4 ++ nnn) = .ok (.jpV0Nnn nnn) ∧
      ∃ t, exec (.jpV0Nnn nnn) s = .next t ∧ t.pc.toNat = (s.reg 0#4).toNat + nnn.toNat ∧ Frame {} s t)

/-- CALL NNN saves the advanced pc in the next free slot and jumps, or overflows when the stack is full, whatever
STACK_CAPACITY is (R103). -/
def Obligations.CallSavesTheReturnAddress : Prop :=
  ∀ (nnn : Addr12) (s : State),
    decodeWord (0x2#4 ++ nnn) = .ok (.callNnn nnn) ∧
    (s.stack.sp.val < s.stack.capacity → ∃ t, exec (.callNnn nnn) s = .next t ∧
      t.pc.toNat = nnn.toNat ∧ t.stack.sp.val = s.stack.sp.val + 1 ∧ t.stack.entry s.stack.sp.val = some s.pc ∧
      (∀ k, k ≠ s.stack.sp.val → t.stack.entry k = s.stack.entry k) ∧ Frame { stack := true } s t) ∧
    (s.stack.sp.val = s.stack.capacity → FaultsWith .stackOverflow (.callNnn nnn) s)

/-- RET pops the last address and jumps to it, leaving the entry in place, or underflows when the stack is empty (R101). -/
def Obligations.ReturnPopsTheLastAddress : Prop :=
  ∀ s : State,
    decodeWord 0x00EE#16 = .ok .ret ∧
    (0 < s.stack.sp.val → ∃ t, exec .ret s = .next t ∧
      some t.pc = s.stack.entry (s.stack.sp.val - 1) ∧ t.stack.sp.val = s.stack.sp.val - 1 ∧
      (∀ k, t.stack.entry k = s.stack.entry k) ∧ Frame { stack := true } s t) ∧
    (s.stack.sp.val = 0 → FaultsWith .stackUnderflow .ret s)

/-- A call followed by a return, with the stack as the call left it, restores the pc saved and the stack pointer (R101,
R103). -/
def Obligations.ReturnUndoesCall : Prop :=
  ∀ (nnn : Addr12) (s : State), s.stack.sp.val < s.stack.capacity →
    ∃ t, exec (.callNnn nnn) s = .next t ∧
      ∀ u : State, u.stack = t.stack →
        ∃ r, exec .ret u = .next r ∧ r.pc = s.pc ∧ r.stack.sp.val = s.stack.sp.val

/-! ### Registers and ALU (spec/42_alu.md) -/

/-- LD VX, NN and ADD VX, NN: modulo 256 and with no flag (R121, R122). -/
def Obligations.LoadAndAddImmediate : Prop :=
  ∀ (x : RegNo) (nn : Byte) (s : State),
    (decodeWord (0x6#4 ++ x ++ nn) = .ok (.ldVxNn x nn) ∧
      ∃ t, exec (.ldVxNn x nn) s = .next t ∧ t.reg x = nn ∧ t.pc = s.pc ∧ Frame { regs := [x] } s t) ∧
    (decodeWord (0x7#4 ++ x ++ nn) = .ok (.addVxNn x nn) ∧
      ∃ t, exec (.addVxNn x nn) s = .next t ∧ (t.reg x).toNat = ((s.reg x).toNat + nn.toNat) % 256 ∧
        t.pc = s.pc ∧ Frame { regs := [x] } s t)

/-- LD, OR, AND and XOR of two registers, bit by bit; VF is not touched unless it is X (R123 to R126). -/
def Obligations.CopyAndBitwise : Prop :=
  ∀ (x y : RegNo) (s : State),
    (decodeWord (0x8#4 ++ x ++ y ++ 0x0#4) = .ok (.ldVxVy x y) ∧
      ∃ t, exec (.ldVxVy x y) s = .next t ∧ t.reg x = s.reg y ∧ t.pc = s.pc ∧ Frame { regs := [x] } s t) ∧
    (decodeWord (0x8#4 ++ x ++ y ++ 0x1#4) = .ok (.orVxVy x y) ∧
      ∃ t, exec (.orVxVy x y) s = .next t ∧
        (∀ k, (t.reg x).getLsbD k = ((s.reg x).getLsbD k || (s.reg y).getLsbD k)) ∧ t.pc = s.pc ∧
        Frame { regs := [x] } s t) ∧
    (decodeWord (0x8#4 ++ x ++ y ++ 0x2#4) = .ok (.andVxVy x y) ∧
      ∃ t, exec (.andVxVy x y) s = .next t ∧
        (∀ k, (t.reg x).getLsbD k = ((s.reg x).getLsbD k && (s.reg y).getLsbD k)) ∧ t.pc = s.pc ∧
        Frame { regs := [x] } s t) ∧
    (decodeWord (0x8#4 ++ x ++ y ++ 0x3#4) = .ok (.xorVxVy x y) ∧
      ∃ t, exec (.xorVxVy x y) s = .next t ∧
        (∀ k, (t.reg x).getLsbD k = ((s.reg x).getLsbD k ^^ (s.reg y).getLsbD k)) ∧ t.pc = s.pc ∧
        Frame { regs := [x] } s t)

/-- ADD VX, VY: the low 8 bits of the sum and the carry in VF; with X = VF the carry stays (R127). -/
def Obligations.AddGivesSumAndCarry : Prop :=
  ∀ (x y : RegNo) (s : State),
    decodeWord (0x8#4 ++ x ++ y ++ 0x4#4) = .ok (.addVxVy x y) ∧
    ∃ t, exec (.addVxVy x y) s = .next t ∧
      (x ≠ vF → (t.reg x).toNat = ((s.reg x).toNat + (s.reg y).toNat) % 256) ∧
      (t.reg vF).toNat = (if 256 ≤ (s.reg x).toNat + (s.reg y).toNat then 1 else 0) ∧
      t.pc = s.pc ∧ Frame { regs := [x, vF] } s t

/-- SUB and SUBN: the difference modulo 256 and the no-borrow flag, 1 for equal operands (R128, R130). -/
def Obligations.SubtractGivesDifferenceAndNoBorrow : Prop :=
  ∀ (x y : RegNo) (s : State),
    (decodeWord (0x8#4 ++ x ++ y ++ 0x5#4) = .ok (.subVxVy x y) ∧
      ∃ t, exec (.subVxVy x y) s = .next t ∧
        (x ≠ vF → ((t.reg x).toNat : Int) = ((s.reg x).toNat - (s.reg y).toNat : Int) % 256) ∧
        (t.reg vF).toNat = (if (s.reg y).toNat ≤ (s.reg x).toNat then 1 else 0) ∧
        t.pc = s.pc ∧ Frame { regs := [x, vF] } s t) ∧
    (decodeWord (0x8#4 ++ x ++ y ++ 0x7#4) = .ok (.subnVxVy x y) ∧
      ∃ t, exec (.subnVxVy x y) s = .next t ∧
        (x ≠ vF → ((t.reg x).toNat : Int) = ((s.reg y).toNat - (s.reg x).toNat : Int) % 256) ∧
        (t.reg vF).toNat = (if (s.reg x).toNat ≤ (s.reg y).toNat then 1 else 0) ∧
        t.pc = s.pc ∧ Frame { regs := [x, vF] } s t)

/-- SHR and SHL: VX is shifted by one, Y is not read, VF is the bit shifted out; with X = VF the shift is of the flag just
written, so VF ends 0, or 2 if bit 7 was set and 0 otherwise (R129, R131; the X = VF clauses are the spec's decision D13).
-/
def Obligations.ShiftsMoveTheLostBitToVF : Prop :=
  ∀ (x y : RegNo) (s : State),
    (decodeWord (0x8#4 ++ x ++ y ++ 0x6#4) = .ok (.shrVx x y) ∧
      ∃ t, exec (.shrVx x y) s = .next t ∧
        (x ≠ vF → (t.reg x).toNat = (s.reg x).toNat / 2 ∧ (t.reg vF).toNat = (s.reg x).toNat % 2) ∧
        (x = vF → (t.reg vF).toNat = 0) ∧ t.pc = s.pc ∧ Frame { regs := [x, vF] } s t) ∧
    (decodeWord (0x8#4 ++ x ++ y ++ 0xE#4) = .ok (.shlVx x y) ∧
      ∃ t, exec (.shlVx x y) s = .next t ∧
        (x ≠ vF → (t.reg x).toNat = 2 * (s.reg x).toNat % 256 ∧ (t.reg vF).toNat = (s.reg x).toNat / 128) ∧
        (x = vF → (t.reg vF).toNat = 2 * ((s.reg vF).toNat / 128)) ∧ t.pc = s.pc ∧
        Frame { regs := [x, vF] } s t)

/-- RND VX, NN: some byte masked with NN, and the host's own byte, used up, where the host has supplied one. Which byte it
is without one is a free value, of which nothing is said (R132; log 3). -/
def Obligations.RandomIsADrawMasked : Prop :=
  ∀ (x : RegNo) (nn : Byte) (s : State),
    decodeWord (0xC#4 ++ x ++ nn) = .ok (.rndVxNn x nn) ∧
    ∃ (t : State) (draw : Byte), exec (.rndVxNn x nn) s = .next t ∧ t.reg x = draw &&& nn ∧
      (∀ b rest, s.randIn = b :: rest → draw = b ∧ t.randIn = rest) ∧
      t.pc = s.pc ∧ Frame { regs := [x], draws := true } s t

/-! ### Index register and memory (spec/43_index_memory.md) -/

/-- LD I, NNN; ADD I, VX modulo 2^16 with no flag; LD F, VX as 5 times VX, unmasked (R151 to R153; that
neither masks is the spec's decision, D6 and D31). -/
def Obligations.IndexWrites : Prop :=
  ∀ (x : RegNo) (nnn : Addr12) (s : State),
    (decodeWord (0xA#4 ++ nnn) = .ok (.ldINnn nnn) ∧
      ∃ t, exec (.ldINnn nnn) s = .next t ∧ t.ireg.toNat = nnn.toNat ∧ t.pc = s.pc ∧ Frame { index := true } s t) ∧
    (decodeWord (0xF#4 ++ x ++ 0x1E#8) = .ok (.addIVx x) ∧
      ∃ t, exec (.addIVx x) s = .next t ∧ t.ireg.toNat = (s.ireg.toNat + (s.reg x).toNat) % 65536 ∧
        t.pc = s.pc ∧ Frame { index := true } s t) ∧
    (decodeWord (0xF#4 ++ x ++ 0x29#8) = .ok (.ldFVx x) ∧
      ∃ t, exec (.ldFVx x) s = .next t ∧ t.ireg.toNat = 5 * (s.reg x).toNat ∧ t.pc = s.pc ∧
        Frame { index := true } s t)

/-- LD B, VX stores the three decimal digits at I, I + 1, I + 2 and nothing else, or faults when I + 2 > 0xFFF (R154). -/
def Obligations.BcdStore : Prop :=
  ∀ (x : RegNo) (s : State), Memory.wf s.mem →
    decodeWord (0xF#4 ++ x ++ 0x33#8) = .ok (.ldBVx x) ∧
    (s.ireg.toNat + 2 ≤ 0xFFF → ∃ t, exec (.ldBVx x) s = .next t ∧
      (t.mem.get s.ireg.toNat).toNat = (s.reg x).toNat / 100 ∧
      (t.mem.get (s.ireg.toNat + 1)).toNat = (s.reg x).toNat / 10 % 10 ∧
      (t.mem.get (s.ireg.toNat + 2)).toNat = (s.reg x).toNat % 10 ∧
      t.pc = s.pc ∧ Frame { store := (s.ireg.toNat, 3) } s t) ∧
    (0xFFF < s.ireg.toNat + 2 → FaultsWith .memOutOfRange (.ldBVx x) s)

/-- LD [I], VX stores V0 to VX at I to I + X and nothing else, or faults when I + X > 0xFFF (R155). -/
def Obligations.RegisterStore : Prop :=
  ∀ (x : RegNo) (s : State), Memory.wf s.mem →
    decodeWord (0xF#4 ++ x ++ 0x55#8) = .ok (.ldIndVx x) ∧
    (s.ireg.toNat + x.toNat ≤ 0xFFF → ∃ t, exec (.ldIndVx x) s = .next t ∧
      (∀ r : RegNo, r.toNat ≤ x.toNat → t.mem.get (s.ireg.toNat + r.toNat) = s.reg r) ∧
      t.pc = s.pc ∧ Frame { store := (s.ireg.toNat, x.toNat + 1) } s t) ∧
    (0xFFF < s.ireg.toNat + x.toNat → FaultsWith .memOutOfRange (.ldIndVx x) s)

/-- LD VX, [I] loads V0 to VX from I to I + X and nothing else, or faults when I + X > 0xFFF (R156). -/
def Obligations.RegisterLoad : Prop :=
  ∀ (x : RegNo) (s : State),
    decodeWord (0xF#4 ++ x ++ 0x65#8) = .ok (.ldVxInd x) ∧
    (s.ireg.toNat + x.toNat ≤ 0xFFF → ∃ t, exec (.ldVxInd x) s = .next t ∧
      (∀ r : RegNo, r.toNat ≤ x.toNat → t.reg r = s.mem.get (s.ireg.toNat + r.toNat)) ∧
      t.pc = s.pc ∧ Frame { regs := regsUpToNo x } s t) ∧
    (0xFFF < s.ireg.toNat + x.toNat → FaultsWith .memOutOfRange (.ldVxInd x) s)

/-- A word stored by LD [I], VX is what a fetch at I reads from then on, with nothing in between (R64, R247). -/
def Obligations.StoredCodeIsFetched : Prop :=
  ∀ (x : RegNo) (s t u : State), Memory.wf s.mem → 1 ≤ x.toNat → s.ireg.toNat + x.toNat ≤ 0xFFF →
    exec (.ldIndVx x) s = .next t → u.mem = t.mem → u.pc = s.ireg →
    fetchWord u = some (wordOfBytes (s.reg 0#4) (s.reg 1#4))

/-! ### Display (spec/44_display.md) -/

/-- CLS clears every pixel and sets dirty; VF and everything else is unchanged (R171). -/
def Obligations.ClearScreen : Prop :=
  ∀ s : State, decodeWord 0x00E0#16 = .ok .cls ∧
    ∃ t, exec .cls s = .next t ∧ (∀ x y, FrameBuffer.pixel t.fb x y = false) ∧ t.dirty = true ∧ t.pc = s.pc ∧
      Frame { display := true } s t

/-- DRW VX, VY, N flips exactly the pixels its set bits cover, wrapping on both axes, sets VF to 1 if one of them was set
and to 0 otherwise, and sets dirty; it faults when N > 0 and I + N - 1 > 0xFFF (R172; the origin
read before VF is cleared, and N = 0, are the spec's decision D14). -/
def Obligations.DrawFlipsCoveredPixels : Prop :=
  ∀ (x y : RegNo) (n : Nibble) (s : State),
    decodeWord (0xD#4 ++ x ++ y ++ n) = .ok (.drwVxVyN x y n) ∧
    (n = 0 ∨ s.ireg.toNat + n.toNat - 1 ≤ 0xFFF → ∃ (t : State) (covered : Nat → Nat → Prop),
      covered = Covers ((List.range n.toNat).map fun k => s.mem.get (s.ireg.toNat + k)) (s.reg x).toNat
        (s.reg y).toNat ∧
      exec (.drwVxVyN x y n) s = .next t ∧
      (∀ px < 64, ∀ py < 32,
        (covered px py → FrameBuffer.pixel t.fb px py = !FrameBuffer.pixel s.fb px py) ∧
        (¬ covered px py → FrameBuffer.pixel t.fb px py = FrameBuffer.pixel s.fb px py)) ∧
      ((∃ px < 64, ∃ py < 32, covered px py ∧ FrameBuffer.pixel s.fb px py = true) → t.reg vF = 1#8) ∧
      (¬ (∃ px < 64, ∃ py < 32, covered px py ∧ FrameBuffer.pixel s.fb px py = true) → t.reg vF = 0#8) ∧
      t.dirty = true ∧ t.pc = s.pc ∧ Frame { regs := [vF], display := true } s t) ∧
    (n ≠ 0 ∧ 0xFFF < s.ireg.toNat + n.toNat - 1 → FaultsWith .memOutOfRange (.drwVxVyN x y n) s)

/-- Two equal draws restore the frame buffer, and the second sets VF exactly when the first turned a pixel on; a sprite of
zero bytes changes no pixel and gives VF = 0 (R173, which the spec derives from R172). -/
def Obligations.DrawTwiceRestores : Prop :=
  ∀ (x y : RegNo) (n : Nibble) (s t s' t' : State),
    (n = 0 ∨ s.ireg.toNat + n.toNat - 1 ≤ 0xFFF) →
    exec (.drwVxVyN x y n) s = .next t →
    s'.fb = t.fb → s'.reg x = s.reg x → s'.reg y = s.reg y → s'.ireg = s.ireg →
    (∀ k < n.toNat, s'.mem.get (s.ireg.toNat + k) = s.mem.get (s.ireg.toNat + k)) →
    exec (.drwVxVyN x y n) s' = .next t' →
    t'.fb = s.fb ∧
    (t'.reg vF = 1#8 ↔ ∃ px < 64, ∃ py < 32,
      FrameBuffer.pixel s.fb px py = false ∧ FrameBuffer.pixel t.fb px py = true) ∧
    ((∀ k < n.toNat, s.mem.get (s.ireg.toNat + k) = 0#8) → t.fb = s.fb ∧ t.reg vF = 0#8)

/-! ### Keys and timers (spec/45_input_timers.md) -/

/-- SKP and SKNP skip on the key VX names, key 0xF too, and fault when VX > 0xF (R191, R192, R197; the
fault is the spec's decision D10). -/
def Obligations.KeySkips : Prop :=
  ∀ (x : RegNo) (s : State),
    decodeWord (0xE#4 ++ x ++ 0x9E#8) = .ok (.skpVx x) ∧ decodeWord (0xE#4 ++ x ++ 0xA1#8) = .ok (.sknpVx x) ∧
    (∀ k : BitVec 4, (s.reg x).toNat = k.toNat →
      (∃ t, exec (.skpVx x) s = .next t ∧ t.pc = (if s.key k = true then s.pc + 2#16 else s.pc) ∧ Frame {} s t) ∧
      (∃ t, exec (.sknpVx x) s = .next t ∧ t.pc = (if s.key k = true then s.pc else s.pc + 2#16) ∧ Frame {} s t)) ∧
    (0xF < (s.reg x).toNat → FaultsWith .keyIndexOutOfRange (.skpVx x) s ∧
      FaultsWith .keyIndexOutOfRange (.sknpVx x) s)

/-- LD VX, K takes the lowest pressed key among 0x0 to 0xE; with none of those pressed it goes back to its own address and
changes nothing else, whatever key 0xF does (R194; C6). -/
def Obligations.AwaitKeyTakesTheLowest : Prop :=
  ∀ (x : RegNo) (s : State),
    decodeWord (0xF#4 ++ x ++ 0x0A#8) = .ok (.ldVxK x) ∧
    (∀ k : BitVec 4, k.toNat ≤ 0xE → s.key k = true → (∀ j : BitVec 4, j.toNat < k.toNat → s.key j = false) →
      ∃ t, exec (.ldVxK x) s = .next t ∧ (t.reg x).toNat = k.toNat ∧ t.pc = s.pc ∧ Frame { regs := [x] } s t) ∧
    ((∀ k : BitVec 4, k.toNat ≤ 0xE → s.key k = false) →
      ∃ t, exec (.ldVxK x) s = .next t ∧ t.pc = s.pc - 2#16 ∧ Frame {} s t)

/-- A core that waits in LD VX, K with no key 0x0 to 0xE pressed changes nothing but its silent diagnostic port, and can go
on for any number of steps (R194, R248). -/
def Obligations.WaitingForAKeyStaysInPlace : Prop :=
  ∀ (x : RegNo) (s : State), s.halted = false → nextInstr s = some (.ldVxK x) →
    (∀ k : BitVec 4, k.toNat ≤ 0xE → s.key k = false) →
    step s = .next { s with diag := none } ∧ ∀ k, RunsSafely k s

/-- LD VX, DT; LD DT, VX; LD ST, VX: the value moves whole, with no flag (R193, R195, R196). -/
def Obligations.TimerMoves : Prop :=
  ∀ (x : RegNo) (s : State),
    (decodeWord (0xF#4 ++ x ++ 0x07#8) = .ok (.ldVxDt x) ∧
      ∃ t, exec (.ldVxDt x) s = .next t ∧ t.reg x = s.dt ∧ t.pc = s.pc ∧ Frame { regs := [x] } s t) ∧
    (decodeWord (0xF#4 ++ x ++ 0x15#8) = .ok (.ldDtVx x) ∧
      ∃ t, exec (.ldDtVx x) s = .next t ∧ t.dt = s.reg x ∧ t.pc = s.pc ∧ Frame { dt := true } s t) ∧
    (decodeWord (0xF#4 ++ x ++ 0x18#8) = .ok (.ldStVx x) ∧
      ∃ t, exec (.ldStVx x) s = .next t ∧ t.st = s.reg x ∧ t.pc = s.pc ∧ Frame { st := true } s t)

/-! ### Faults (spec/60_exceptions.md) -/

/-- Fault entry sets halted and the record; a fetch fault has no opcode, recorded as 0 and not valid (R211;
the codes and fields are the spec's decision D9). -/
def Obligations.FaultEntryWritesTheRecord : Prop :=
  ∀ (kind : FaultKind) (pc w : Word) (s : State),
    Halted kind pc w true (raiseFault kind pc (some w) s) ∧ Halted kind pc 0#16 false (raiseFault kind pc none s)

/-- A step that halts the core has one fault: the fetch fault when pc > 0xFFE, else the one kind the decoded instruction
can raise, with the address and the word it was fetched from (R210, R211, R215; derived by the
spec, and its decisions D9 and D10). -/
def Obligations.StepHaltsWithTheFaultOfItsInstruction : Prop :=
  ∀ s t : State, s.halted = false → step s = .next t → t.halted = true →
    (0xFFE < s.pc.toNat ∧ Halted .fetchOutOfRange s.pc 0#16 false t) ∨
    (s.pc.toNat ≤ 0xFFE ∧ ∃ w i, fetchWord s = some w ∧ decodeWord w = .ok i ∧ faultKindOf i ≠ .none ∧
      Halted (faultKindOf i) s.pc w true t)

/-! ### Reset and the machine's invariant (spec/70_reset_and_hazards.md) -/

/-- Construction leaves every field as the table says, for every STACK_CAPACITY and FONT_DATA (R240, R10; the fault record's
rows are the spec's decision D9, the parameters D7 and D21). This hardware has 16 return addresses. -/
def Obligations.ResetLeavesTheConstructionState : Prop :=
  State.reset = State.resetOf Config.hardware ∧ Config.hardware.stackCapacity = 16 ∧
  ∀ p : Config.Params,
    (State.resetOf p).params = p ∧
    (∀ (g : Fin 16) (k : Fin 5), (State.resetOf p).mem.get (5 * g.val + k.val) = p.font[g][k]) ∧
    (∀ a, 0x050 ≤ a → a ≤ 0xFFF → (State.resetOf p).mem.get a = 0x00#8) ∧
    (∀ x, (State.resetOf p).reg x = 0x00#8) ∧ (State.resetOf p).ireg = 0#16 ∧ (State.resetOf p).pc = 0x200#16 ∧
    (State.resetOf p).stack.sp.val = 0 ∧
    (∀ k, k < p.stackCapacity → (State.resetOf p).stack.entry k = some 0#16) ∧
    (State.resetOf p).dt = 0#8 ∧ (State.resetOf p).st = 0#8 ∧
    (∀ x y, FrameBuffer.pixel (State.resetOf p).fb x y = false) ∧ (State.resetOf p).dirty = false ∧
    (∀ k, (State.resetOf p).key k = false) ∧ (State.resetOf p).halted = false ∧
    (State.resetOf p).faultKind.code = 0#3 ∧ (State.resetOf p).faultPc = 0#16 ∧
    (State.resetOf p).faultOpcode = 0#16 ∧ (State.resetOf p).faultOpcodeValid = false

/-- The reset transaction gives, from any state, halted or not, the construction state for the core's parameters; the
pending draws and the counter of free values, which the model owns, go on (R244; the reset input is the spec's decision
D26, and what the model keeps is its choice in log 15). -/
def Obligations.ResetTransactionReconstructs : Prop :=
  ∀ s : State, (construct s).halted = false ∧ (construct s).params = s.params ∧
    (construct s).randIn = s.randIn ∧ (construct s).freeCount = s.freeCount ∧
    construct s = { State.resetOf s.params with randIn := s.randIn, freeCount := s.freeCount }

/-- The construction state meets the invariant, for every STACK_CAPACITY and FONT_DATA (R240). -/
def Obligations.ResetMeetsTheInvariant : Prop := Inv State.reset ∧ ∀ p, Inv (State.resetOf p)

/-- Every step keeps the invariant: memory canonical, the fault record coherent, and until a fault pc at most 0x10FE and
every live stack entry at most 0x1000 (R24, R27, R33, R210; D8; the canonical form is the model's, log 12). -/
def Obligations.StepKeepsTheInvariant : Prop :=
  ∀ s t : State, Inv s → step s = .next t → Inv t

/-- No step changes a parameter, a step that faults neither (R10, R27, R57; that R213 leaves the parameters alone is log 2).
-/
def Obligations.StepKeepsTheParameters : Prop :=
  ∀ s t : State, step s = .next t → t.params = s.params

/-- Every interleaving of the host's transactions keeps the invariant (R228). -/
def Obligations.SessionKeepsTheInvariant : Prop :=
  ∀ (ops : List HostOp) (h h' : Session), Inv h.core → Session.run ops h = .next h' → Inv h'.core

/-! ### Whole-machine rules -/

/-- The frame rule for every instruction: one that does not fault changes only its footprint (R14). -/
def Obligations.EveryInstructionStaysInItsFootprint : Prop :=
  ∀ (i : Instr) (s t : State), Memory.wf s.mem → exec i s = .next t → t.halted = false →
    Frame (footprint i s) s t

/-- VF changes only in the six flag-writing instructions or one that names VF as its destination (R22). -/
def Obligations.VFChangesOnlyByItsWriters : Prop :=
  ∀ s t : State, s.halted = false → step s = .next t → t.halted = false → t.reg vF ≠ s.reg vF →
    ∃ i, nextInstr s = some i ∧ WritesVF i

/-- A step that does not fault changes a byte of memory only in LD B, VX or LD [I], VX, inside the bytes it stores (R58,
R59). -/
def Obligations.MemoryChangesOnlyByStores : Prop :=
  ∀ (s t : State) (a : Nat), Memory.wf s.mem → s.halted = false → step s = .next t → t.halted = false →
    t.mem.get a ≠ s.mem.get a →
    ∃ x, (nextInstr s = some (.ldBVx x) ∧ s.ireg.toNat ≤ a ∧ a ≤ s.ireg.toNat + 2) ∨
      (nextInstr s = some (.ldIndVx x) ∧ s.ireg.toNat ≤ a ∧ a ≤ s.ireg.toNat + x.toNat)

/-- A step that does not fault changes I, DT, ST, the call stack or a pixel only in the instructions whose rules say so,
never clears dirty, and never changes the input latch (R23, R25, R26, R27, R28, R30, R31, R32). -/
def Obligations.StateChangesOnlyByItsInstructions : Prop :=
  ∀ s t : State, s.halted = false → step s = .next t → t.halted = false →
    (t.ireg ≠ s.ireg → ∃ i, nextInstr s = some i ∧
      ((∃ nnn, i = .ldINnn nnn) ∨ (∃ x, i = .addIVx x) ∨ (∃ x, i = .ldFVx x))) ∧
    (t.dt ≠ s.dt → ∃ x, nextInstr s = some (.ldDtVx x)) ∧
    (t.st ≠ s.st → ∃ x, nextInstr s = some (.ldStVx x)) ∧
    (t.stack.sp.val ≠ s.stack.sp.val → nextInstr s = some .ret ∨ ∃ nnn, nextInstr s = some (.callNnn nnn)) ∧
    ((∃ k, t.stack.entry k ≠ s.stack.entry k) → ∃ nnn, nextInstr s = some (.callNnn nnn)) ∧
    (t.fb ≠ s.fb → nextInstr s = some .cls ∨ ∃ x y n, nextInstr s = some (.drwVxVyN x y n)) ∧
    (s.dirty = true → t.dirty = true) ∧ t.keys = s.keys

/-- A finished program, at a jump to its own address with no fault, changes nothing but its silent diagnostic port, and
can go on for any number of steps (R229, D30; the port is the model's field, log 4). -/
def Obligations.SelfJumpIsAFixedPoint : Prop :=
  ∀ s : State, Finished s → step s = .next { s with diag := none } ∧ ∀ k, RunsSafely k s

/-! ### The host's transactions (spec/60_exceptions.md R220, R225; spec/70_reset_and_hazards.md R242) -/

/-- The tick counts both timers down by at most 1, never below 0, and changes nothing else; on a halted core, where the two
timers are unspecified, it still changes nothing else (R220, R213). Of the diagnostic port, an output, nothing is said
here. -/
def Obligations.TickCountsTimersDown : Prop :=
  ∀ s : State,
    (s.halted = false → (tick s).dt.toNat = s.dt.toNat - 1 ∧ (tick s).st.toNat = s.st.toNat - 1) ∧
    tick s = { s with dt := (tick s).dt, st := (tick s).st, diag := (tick s).diag }

/-- Writing the latch overwrites all 16 entries, key k by bit k; consuming dirty clears it; neither changes anything else
(R225; D2, D18). The two values are claimed of a core that has not halted (R213); that both transactions change nothing
else on a halted core too is the model's choice in log 19. Of the diagnostic port, an output, nothing is said here. -/
def Obligations.LatchAndDirtyTransactions : Prop :=
  ∀ (keysIn : BitVec 16) (s : State),
    (s.halted = false → (∀ k : BitVec 4, (setKeys keysIn s).key k = keysIn.getLsbD k.toNat) ∧
      (consumeDirty s).dirty = false) ∧
    setKeys keysIn s = { s with keys := (setKeys keysIn s).keys, diag := (setKeys keysIn s).diag } ∧
    consumeDirty s = { s with dirty := (consumeDirty s).dirty, diag := (consumeDirty s).diag }

/-- The diagnostic is a pulse: after a step that does not fault the port is valid exactly when the step decoded an
UNRECOGNIZED word, and then it carries that word and its address; after a step that faults, and after every transaction
that is no step, it is not valid (R216, R225; how the model holds the pulse is log 4). -/
def Obligations.DiagnosticIsAPulse : Prop :=
  (∀ (s t : State) (d : Diag), s.halted = false → step s = .next t →
    (t.diag = some d ↔ d.addr = s.pc ∧ fetchWord s = some d.opcode ∧ ∃ e, decodeWord d.opcode = .error e)) ∧
  (∀ (op : HostOp) (h h' : Session), (∀ r, op ≠ .step r) → Session.apply op h = .next h' → h'.core.diag = none) ∧
  (∀ (image : List Byte) (h h' : Session), Session.load image h = .next h' → h'.core.diag = none)

/-- Before the first step a program image of at most 3584 bytes is copied verbatim to 0x200 and nothing else changes; a
longer one is refused, and so is any image after the first step (R242; the bound is the spec's decision D20, and the mark
that keeps the window is the model's, log 11). It is claimed of a core that has not halted, as every core before its first
step is. -/
def Obligations.LoadCopiesTheImage : Prop :=
  ∀ (image : List Byte) (h : Session), Memory.wf h.core.mem → h.core.halted = false →
    (h.started = true → Session.load image h = .refused .loadAfterFirstStep) ∧
    (h.started = false → 3584 < image.length → Session.load image h = .refused .imageTooLarge) ∧
    (h.started = false → image.length ≤ 3584 → ∃ h', Session.load image h = .next h' ∧ h'.started = false ∧
      (∀ k b, image[k]? = some b → h'.core.mem.get (0x200 + k) = b) ∧
      (∀ a, a < 0x200 ∨ 0x200 + image.length ≤ a → h'.core.mem.get a = h.core.mem.get a) ∧
      h'.core = { h.core with mem := h'.core.mem, diag := none })

/-- The load port writes one byte at 0x200 + offset before the first step, and is refused after it or at an offset of 3584
or more (R225, R242; the window is the spec's decision D20, and how it is kept is log 11; that it does not ask whether the
core has halted is log 19). -/
def Obligations.LoadPortWindow : Prop :=
  ∀ (offset : Addr12) (data : Byte) (h : Session), Memory.wf h.core.mem →
    (h.started = true → Session.apply (.loadByte offset data) h = .refused .loadAfterFirstStep) ∧
    (h.started = false → 3584 ≤ offset.toNat →
      Session.apply (.loadByte offset data) h = .refused .loadOutOfWindow) ∧
    (h.started = false → offset.toNat < 3584 → ∃ h', Session.apply (.loadByte offset data) h = .next h' ∧
      h'.started = false ∧ h'.core = { h.core with mem := h'.core.mem, diag := none } ∧
      ∀ a, h'.core.mem.get a = if a = 0x200 + offset.toNat then data else h.core.mem.get a)

/-- A transaction of a step marks the session started, and only construction takes the mark back (R242, R243, R244;
log 11). -/
def Obligations.StartedUntilConstruct : Prop :=
  ∀ (op : HostOp) (h h' : Session), Session.apply op h = .next h' →
    h'.started = match op with
      | .construct => false
      | .step _ => true
      | _ => h.started

/-- Bit 64*y + x of the frame-buffer port is FB[x][y] (R225; the spec's decision D32). -/
def Obligations.FrameBufferPortBits : Prop :=
  ∀ (s : State) (x y : Nat), x < 64 → y < 32 →
    (fbOut s).getLsbD (64 * y + x) = FrameBuffer.pixel s.fb x y
end

