-- ==== Sys2Proof/Laws/Decode.lean ====
section
/-!
SUPPORT. Each field read from a word put together of fields (spec/30_encoding.md R82, R90), and each word put together
again of its fields.
-/

namespace Sys2Proof

variable (f x y n : BitVec 4) (nn : Byte) (nnn : Addr12) (w : Word)

@[simp] theorem fieldF_nnn : fieldF (f ++ nnn) = f := by
  ext i hi
  simp only [fieldF, BitVec.getElem_extractLsb', BitVec.getLsbD_append]
  interval_cases i <;> simp

@[simp] theorem fieldNNN_nnn : fieldNNN (f ++ nnn) = nnn := by
  ext i hi
  simp only [fieldNNN, BitVec.getElem_extractLsb', BitVec.getLsbD_append]
  interval_cases i <;> simp

@[simp] theorem fieldF_xnn : fieldF (f ++ x ++ nn) = f := by
  ext i hi
  simp only [fieldF, BitVec.getElem_extractLsb', BitVec.getLsbD_append]
  interval_cases i <;> simp

@[simp] theorem fieldX_xnn : fieldX (f ++ x ++ nn) = x := by
  ext i hi
  simp only [fieldX, BitVec.getElem_extractLsb', BitVec.getLsbD_append]
  interval_cases i <;> simp

@[simp] theorem fieldNN_xnn : fieldNN (f ++ x ++ nn) = nn := by
  ext i hi
  simp only [fieldNN, BitVec.getElem_extractLsb', BitVec.getLsbD_append]
  interval_cases i <;> simp

@[simp] theorem fieldF_xyn : fieldF (f ++ x ++ y ++ n) = f := by
  ext i hi
  simp only [fieldF, BitVec.getElem_extractLsb', BitVec.getLsbD_append]
  interval_cases i <;> simp

@[simp] theorem fieldX_xyn : fieldX (f ++ x ++ y ++ n) = x := by
  ext i hi
  simp only [fieldX, BitVec.getElem_extractLsb', BitVec.getLsbD_append]
  interval_cases i <;> simp

@[simp] theorem fieldY_xyn : fieldY (f ++ x ++ y ++ n) = y := by
  ext i hi
  simp only [fieldY, BitVec.getElem_extractLsb', BitVec.getLsbD_append]
  interval_cases i <;> simp

@[simp] theorem fieldN_xyn : fieldN (f ++ x ++ y ++ n) = n := by
  ext i hi
  simp only [fieldN, BitVec.getElem_extractLsb', BitVec.getLsbD_append]
  interval_cases i <;> simp

/-- A word is its top nibble and its low 12 bits. -/
theorem word_nnn : (fieldF w ++ fieldNNN w : Word) = w := by
  ext i hi
  simp only [fieldF, fieldNNN, BitVec.getElem_append, BitVec.getElem_extractLsb']
  interval_cases i <;> simp

/-- A word is its two top nibbles and its low byte. -/
theorem word_xnn : (fieldF w ++ fieldX w ++ fieldNN w : Word) = w := by
  ext i hi
  simp only [fieldF, fieldX, fieldNN, BitVec.getElem_append, BitVec.getElem_extractLsb']
  interval_cases i <;> simp

/-- A word is its four nibbles. -/
theorem word_xyn : (fieldF w ++ fieldX w ++ fieldY w ++ fieldN w : Word) = w := by
  ext i hi
  simp only [fieldF, fieldX, fieldY, fieldN, BitVec.getElem_append, BitVec.getElem_extractLsb']
  interval_cases i <;> simp

/-- A word is its two bytes, the first the more significant (R53). -/
theorem wordOfBytes_extract : wordOfBytes (w.extractLsb' 8 8) (w.extractLsb' 0 8) = w := by
  apply BitVec.eq_of_getLsbD_eq
  intro i hi
  simp only [wordOfBytes, BitVec.getLsbD_append, BitVec.getLsbD_extractLsb']
  interval_cases i <;> simp

end Sys2Proof
end

