-- ==== Sys2Proof/Laws/State.lean ====
section
/-!
SUPPORT. One lemma per field per update of State, so that no later proof unfolds a record update, and the laws of the
register file.
-/

namespace Sys2Proof.Machine

variable (s : State)

/-! ### V[x] <- b -/

@[simp] theorem State.setReg_mem (x : RegNo) (b : Byte) : (s.setReg x b).mem = s.mem := rfl
@[simp] theorem State.setReg_ireg (x : RegNo) (b : Byte) : (s.setReg x b).ireg = s.ireg := rfl
@[simp] theorem State.setReg_pc (x : RegNo) (b : Byte) : (s.setReg x b).pc = s.pc := rfl
@[simp] theorem State.setReg_params (x : RegNo) (b : Byte) : (s.setReg x b).params = s.params := rfl
@[simp] theorem State.setReg_stack (x : RegNo) (b : Byte) : (s.setReg x b).stack = s.stack := rfl
@[simp] theorem State.setReg_dt (x : RegNo) (b : Byte) : (s.setReg x b).dt = s.dt := rfl
@[simp] theorem State.setReg_st (x : RegNo) (b : Byte) : (s.setReg x b).st = s.st := rfl
@[simp] theorem State.setReg_fb (x : RegNo) (b : Byte) : (s.setReg x b).fb = s.fb := rfl
@[simp] theorem State.setReg_dirty (x : RegNo) (b : Byte) : (s.setReg x b).dirty = s.dirty := rfl
@[simp] theorem State.setReg_keys (x : RegNo) (b : Byte) : (s.setReg x b).keys = s.keys := rfl
@[simp] theorem State.setReg_halted (x : RegNo) (b : Byte) : (s.setReg x b).halted = s.halted := rfl
@[simp] theorem State.setReg_faultKind (x : RegNo) (b : Byte) : (s.setReg x b).faultKind = s.faultKind := rfl
@[simp] theorem State.setReg_faultPc (x : RegNo) (b : Byte) : (s.setReg x b).faultPc = s.faultPc := rfl
@[simp] theorem State.setReg_faultOpcode (x : RegNo) (b : Byte) : (s.setReg x b).faultOpcode = s.faultOpcode := rfl
@[simp] theorem State.setReg_faultOpcodeValid (x : RegNo) (b : Byte) : (s.setReg x b).faultOpcodeValid = s.faultOpcodeValid := rfl
@[simp] theorem State.setReg_randIn (x : RegNo) (b : Byte) : (s.setReg x b).randIn = s.randIn := rfl
@[simp] theorem State.setReg_freeCount (x : RegNo) (b : Byte) : (s.setReg x b).freeCount = s.freeCount := rfl
@[simp] theorem State.setReg_diag (x : RegNo) (b : Byte) : (s.setReg x b).diag = s.diag := rfl

@[simp] theorem State.setReg_reg (x y : RegNo) (b : Byte) :
    (s.setReg x b).reg y = if y = x then b else s.reg y := by
  simp only [State.reg, State.setReg, Vector.getElem_set, BitVec.toNat_inj, eq_comm]

theorem State.setReg_reg_ne (x y : RegNo) (b : Byte) (h : y ≠ x) : (s.setReg x b).reg y = s.reg y := by
  simp [h]

/-! ### VF <- flag -/

@[simp] theorem State.setFlag_mem (c : Bool) : (s.setFlag c).mem = s.mem := rfl
@[simp] theorem State.setFlag_ireg (c : Bool) : (s.setFlag c).ireg = s.ireg := rfl
@[simp] theorem State.setFlag_pc (c : Bool) : (s.setFlag c).pc = s.pc := rfl
@[simp] theorem State.setFlag_params (c : Bool) : (s.setFlag c).params = s.params := rfl
@[simp] theorem State.setFlag_stack (c : Bool) : (s.setFlag c).stack = s.stack := rfl
@[simp] theorem State.setFlag_dt (c : Bool) : (s.setFlag c).dt = s.dt := rfl
@[simp] theorem State.setFlag_st (c : Bool) : (s.setFlag c).st = s.st := rfl
@[simp] theorem State.setFlag_fb (c : Bool) : (s.setFlag c).fb = s.fb := rfl
@[simp] theorem State.setFlag_dirty (c : Bool) : (s.setFlag c).dirty = s.dirty := rfl
@[simp] theorem State.setFlag_keys (c : Bool) : (s.setFlag c).keys = s.keys := rfl
@[simp] theorem State.setFlag_halted (c : Bool) : (s.setFlag c).halted = s.halted := rfl
@[simp] theorem State.setFlag_faultKind (c : Bool) : (s.setFlag c).faultKind = s.faultKind := rfl
@[simp] theorem State.setFlag_faultPc (c : Bool) : (s.setFlag c).faultPc = s.faultPc := rfl
@[simp] theorem State.setFlag_faultOpcode (c : Bool) : (s.setFlag c).faultOpcode = s.faultOpcode := rfl
@[simp] theorem State.setFlag_faultOpcodeValid (c : Bool) : (s.setFlag c).faultOpcodeValid = s.faultOpcodeValid := rfl
@[simp] theorem State.setFlag_randIn (c : Bool) : (s.setFlag c).randIn = s.randIn := rfl
@[simp] theorem State.setFlag_freeCount (c : Bool) : (s.setFlag c).freeCount = s.freeCount := rfl
@[simp] theorem State.setFlag_diag (c : Bool) : (s.setFlag c).diag = s.diag := rfl

@[simp] theorem State.setFlag_reg (c : Bool) (y : RegNo) :
    (s.setFlag c).reg y = if y = vF then flagByte c else s.reg y := State.setReg_reg s vF y _

/-! ### pc <- target, and skips -/

@[simp] theorem State.setPc_mem (p : Word) : (s.setPc p).mem = s.mem := rfl
@[simp] theorem State.setPc_v (p : Word) : (s.setPc p).v = s.v := rfl
@[simp] theorem State.setPc_ireg (p : Word) : (s.setPc p).ireg = s.ireg := rfl
@[simp] theorem State.setPc_params (p : Word) : (s.setPc p).params = s.params := rfl
@[simp] theorem State.setPc_stack (p : Word) : (s.setPc p).stack = s.stack := rfl
@[simp] theorem State.setPc_dt (p : Word) : (s.setPc p).dt = s.dt := rfl
@[simp] theorem State.setPc_st (p : Word) : (s.setPc p).st = s.st := rfl
@[simp] theorem State.setPc_fb (p : Word) : (s.setPc p).fb = s.fb := rfl
@[simp] theorem State.setPc_dirty (p : Word) : (s.setPc p).dirty = s.dirty := rfl
@[simp] theorem State.setPc_keys (p : Word) : (s.setPc p).keys = s.keys := rfl
@[simp] theorem State.setPc_halted (p : Word) : (s.setPc p).halted = s.halted := rfl
@[simp] theorem State.setPc_faultKind (p : Word) : (s.setPc p).faultKind = s.faultKind := rfl
@[simp] theorem State.setPc_faultPc (p : Word) : (s.setPc p).faultPc = s.faultPc := rfl
@[simp] theorem State.setPc_faultOpcode (p : Word) : (s.setPc p).faultOpcode = s.faultOpcode := rfl
@[simp] theorem State.setPc_faultOpcodeValid (p : Word) : (s.setPc p).faultOpcodeValid = s.faultOpcodeValid := rfl
@[simp] theorem State.setPc_randIn (p : Word) : (s.setPc p).randIn = s.randIn := rfl
@[simp] theorem State.setPc_freeCount (p : Word) : (s.setPc p).freeCount = s.freeCount := rfl
@[simp] theorem State.setPc_diag (p : Word) : (s.setPc p).diag = s.diag := rfl

@[simp] theorem State.setPc_pc (p : Word) : (s.setPc p).pc = p := rfl

@[simp] theorem State.setPc_reg (p : Word) (x : RegNo) : (s.setPc p).reg x = s.reg x := rfl

@[simp] theorem State.skipIf_mem (c : Bool) : (s.skipIf c).mem = s.mem := by
  cases c <;> rfl
@[simp] theorem State.skipIf_v (c : Bool) : (s.skipIf c).v = s.v := by
  cases c <;> rfl
@[simp] theorem State.skipIf_ireg (c : Bool) : (s.skipIf c).ireg = s.ireg := by
  cases c <;> rfl
@[simp] theorem State.skipIf_params (c : Bool) : (s.skipIf c).params = s.params := by
  cases c <;> rfl
@[simp] theorem State.skipIf_stack (c : Bool) : (s.skipIf c).stack = s.stack := by
  cases c <;> rfl
@[simp] theorem State.skipIf_dt (c : Bool) : (s.skipIf c).dt = s.dt := by
  cases c <;> rfl
@[simp] theorem State.skipIf_st (c : Bool) : (s.skipIf c).st = s.st := by
  cases c <;> rfl
@[simp] theorem State.skipIf_fb (c : Bool) : (s.skipIf c).fb = s.fb := by
  cases c <;> rfl
@[simp] theorem State.skipIf_dirty (c : Bool) : (s.skipIf c).dirty = s.dirty := by
  cases c <;> rfl
@[simp] theorem State.skipIf_keys (c : Bool) : (s.skipIf c).keys = s.keys := by
  cases c <;> rfl
@[simp] theorem State.skipIf_halted (c : Bool) : (s.skipIf c).halted = s.halted := by
  cases c <;> rfl
@[simp] theorem State.skipIf_faultKind (c : Bool) : (s.skipIf c).faultKind = s.faultKind := by
  cases c <;> rfl
@[simp] theorem State.skipIf_faultPc (c : Bool) : (s.skipIf c).faultPc = s.faultPc := by
  cases c <;> rfl
@[simp] theorem State.skipIf_faultOpcode (c : Bool) : (s.skipIf c).faultOpcode = s.faultOpcode := by
  cases c <;> rfl
@[simp] theorem State.skipIf_faultOpcodeValid (c : Bool) : (s.skipIf c).faultOpcodeValid = s.faultOpcodeValid := by
  cases c <;> rfl
@[simp] theorem State.skipIf_randIn (c : Bool) : (s.skipIf c).randIn = s.randIn := by
  cases c <;> rfl
@[simp] theorem State.skipIf_freeCount (c : Bool) : (s.skipIf c).freeCount = s.freeCount := by
  cases c <;> rfl
@[simp] theorem State.skipIf_diag (c : Bool) : (s.skipIf c).diag = s.diag := by
  cases c <;> rfl

@[simp] theorem State.skipIf_pc (c : Bool) : (s.skipIf c).pc = if c then s.pc + 2#16 else s.pc := by
  cases c <;> rfl

@[simp] theorem State.skipIf_reg (c : Bool) (x : RegNo) : (s.skipIf c).reg x = s.reg x := by
  cases c <;> rfl

/-! ### Loading several registers -/

@[simp] theorem State.loadRegs_mem (l : List Byte) : (s.loadRegs l).mem = s.mem := rfl
@[simp] theorem State.loadRegs_ireg (l : List Byte) : (s.loadRegs l).ireg = s.ireg := rfl
@[simp] theorem State.loadRegs_pc (l : List Byte) : (s.loadRegs l).pc = s.pc := rfl
@[simp] theorem State.loadRegs_params (l : List Byte) : (s.loadRegs l).params = s.params := rfl
@[simp] theorem State.loadRegs_stack (l : List Byte) : (s.loadRegs l).stack = s.stack := rfl
@[simp] theorem State.loadRegs_dt (l : List Byte) : (s.loadRegs l).dt = s.dt := rfl
@[simp] theorem State.loadRegs_st (l : List Byte) : (s.loadRegs l).st = s.st := rfl
@[simp] theorem State.loadRegs_fb (l : List Byte) : (s.loadRegs l).fb = s.fb := rfl
@[simp] theorem State.loadRegs_dirty (l : List Byte) : (s.loadRegs l).dirty = s.dirty := rfl
@[simp] theorem State.loadRegs_keys (l : List Byte) : (s.loadRegs l).keys = s.keys := rfl
@[simp] theorem State.loadRegs_halted (l : List Byte) : (s.loadRegs l).halted = s.halted := rfl
@[simp] theorem State.loadRegs_faultKind (l : List Byte) : (s.loadRegs l).faultKind = s.faultKind := rfl
@[simp] theorem State.loadRegs_faultPc (l : List Byte) : (s.loadRegs l).faultPc = s.faultPc := rfl
@[simp] theorem State.loadRegs_faultOpcode (l : List Byte) : (s.loadRegs l).faultOpcode = s.faultOpcode := rfl
@[simp] theorem State.loadRegs_faultOpcodeValid (l : List Byte) : (s.loadRegs l).faultOpcodeValid = s.faultOpcodeValid := rfl
@[simp] theorem State.loadRegs_randIn (l : List Byte) : (s.loadRegs l).randIn = s.randIn := rfl
@[simp] theorem State.loadRegs_freeCount (l : List Byte) : (s.loadRegs l).freeCount = s.freeCount := rfl
@[simp] theorem State.loadRegs_diag (l : List Byte) : (s.loadRegs l).diag = s.diag := rfl

@[simp] theorem State.loadRegs_reg (l : List Byte) (x : RegNo) :
    (s.loadRegs l).reg x = (l[x.toNat]?).getD (s.reg x) := by
  simp [State.loadRegs, State.reg]

/-- The list a register store writes (R155): entry k is V[k]. -/
theorem State.regsUpTo_getElem? (x : RegNo) (k : Nat) (hk : k ≤ x.toNat) :
    (s.regsUpTo x)[k]? = some (s.reg (BitVec.ofNat 4 k)) := by
  have hx := x.isLt
  have h16 : k < 16 := by omega
  have hm : k % 2 ^ 4 = k := Nat.mod_eq_of_lt (by omega)
  simp only [State.regsUpTo, State.reg, List.getElem?_take, BitVec.toNat_ofNat, hm]
  rw [if_pos (by omega)]
  simp [h16]

@[simp] theorem State.regsUpTo_length (x : RegNo) : (s.regsUpTo x).length = x.toNat + 1 := by
  have := x.isLt
  simp only [State.regsUpTo, List.length_take, Vector.length_toList]
  omega

/-! ### The call stack (R27, R28) -/

@[simp] theorem CallStack.push_capacity (c : CallStack) (w : Word) (h : c.sp.val < c.capacity) :
    (c.push w h).capacity = c.capacity := rfl
@[simp] theorem CallStack.push_sp (c : CallStack) (w : Word) (h : c.sp.val < c.capacity) :
    (c.push w h).sp.val = c.sp.val + 1 := rfl
@[simp] theorem CallStack.pop_capacity (c : CallStack) : c.pop.capacity = c.capacity := rfl
@[simp] theorem CallStack.pop_sp (c : CallStack) : c.pop.sp.val = c.sp.val - 1 := rfl
@[simp] theorem CallStack.pop_entry (c : CallStack) (k : Nat) : c.pop.entry k = c.entry k := rfl

/-- A push writes the slot SP named and no other. -/
@[simp] theorem CallStack.push_entry (c : CallStack) (w : Word) (h : c.sp.val < c.capacity) (k : Nat) :
    (c.push w h).entry k = if k = c.sp.val then some w else c.entry k := by
  show (c.entries.set c.sp.val w h)[k]? = _
  rw [Vector.getElem?_set, CallStack.entry]
  simp only [eq_comm]

/-- The top is the entry below SP. -/
theorem CallStack.top_eq (c : CallStack) (h : 0 < c.sp.val) : some (c.top h) = c.entry (c.sp.val - 1) :=
  (Vector.getElem?_eq_getElem _).symm

/-! ### The construction state (R240) -/

@[simp] theorem State.resetOf_params (p : Config.Params) : (State.resetOf p).params = p := rfl

/-! ### Flags as numbers -/

@[simp] theorem flagByte_toNat (c : Bool) : (flagByte c).toNat = if c then 1 else 0 := by
  cases c <;> rfl

theorem carry_iff (a b : Byte) : carry a b = true ↔ 256 ≤ a.toNat + b.toNat := by
  simp [carry]

theorem noBorrow_iff (a b : Byte) : noBorrow a b = true ↔ b.toNat ≤ a.toNat := by
  simp [noBorrow]

end Sys2Proof.Machine
end

