-- ==== Sys2Proof/Laws/Draw.lean ====
section
/-!
SUPPORT. What drawing a sprite does to a pixel (spec/44_display.md R170, R172): the bits of a sprite of at most 32 rows
fall on pixels that differ, so each pixel a set bit covers is flipped once, and the collision is with the pixels as they
were before the draw.
-/

namespace Sys2Proof.Machine

theorem FrameBuffer.pixel_flip (fb : FrameBuffer) (x y px py : Nat) :
    FrameBuffer.pixel (FrameBuffer.flip fb x y) px py =
      if x % 64 = px % 64 ∧ y % 32 = py % 32 then !FrameBuffer.pixel fb px py else FrameBuffer.pixel fb px py := by
  simp only [FrameBuffer.pixel, FrameBuffer.flip, Vector.getElem_set]
  by_cases hy : y % 32 = py % 32
  · by_cases hx : x % 64 = px % 64
    · simp [hx, hy]
    · simp [hx, hy]
  · simp [hy]

theorem FrameBuffer.pixel_mod (fb : FrameBuffer) (x y : Nat) :
    FrameBuffer.pixel fb (x % 64) (y % 32) = FrameBuffer.pixel fb x y := by
  simp [FrameBuffer.pixel]

theorem FrameBuffer.pixel_clear (x y : Nat) : FrameBuffer.pixel FrameBuffer.clear x y = false := by
  simp [FrameBuffer.pixel, FrameBuffer.clear]

/-- Frame buffers with the same pixels are equal. -/
theorem FrameBuffer.ext_pixel {a b : FrameBuffer}
    (h : ∀ x < 64, ∀ y < 32, FrameBuffer.pixel a x y = FrameBuffer.pixel b x y) : a = b := by
  apply Vector.ext
  intro y hy
  apply Vector.ext
  intro x hx
  have := h x hx y hy
  simpa [FrameBuffer.pixel, Nat.mod_eq_of_lt hx, Nat.mod_eq_of_lt hy] using this

/-- The pixels a sprite row covers. -/
def RowCovers (row : Byte) (n ox oy x y : Nat) : Prop :=
  ∃ k, k < n ∧ row.getLsbD (7 - k) = true ∧ (ox + k) % 64 = x ∧ oy % 32 = y

/-- The first n bits of a sprite row drawn. -/
def drawBits (row : Byte) (x y : Nat) (c : Canvas) (n : Nat) : Canvas :=
  (List.range n).foldl (fun c k => drawBit (row.getLsbD (7 - k)) (x + k) y c) c

theorem drawBits_succ (row : Byte) (x y : Nat) (c : Canvas) (n : Nat) :
    drawBits row x y c (n + 1) = drawBit (row.getLsbD (7 - n)) (x + n) y (drawBits row x y c n) := by
  simp [drawBits, List.range_succ]

/-- Drawing n bits of a row flips what they cover and nothing else, and the hit is with the pixels as they were. -/
theorem drawBits_spec (row : Byte) (ox oy : Nat) (c : Canvas) (n : Nat) (hn : n ≤ 8) :
    (∀ x < 64, ∀ y < 32,
      (RowCovers row n ox oy x y → FrameBuffer.pixel (drawBits row ox oy c n).fb x y = !FrameBuffer.pixel c.fb x y) ∧
      (¬ RowCovers row n ox oy x y → FrameBuffer.pixel (drawBits row ox oy c n).fb x y = FrameBuffer.pixel c.fb x y)) ∧
    ((drawBits row ox oy c n).hit = true ↔
      c.hit = true ∨ ∃ x < 64, ∃ y < 32, RowCovers row n ox oy x y ∧ FrameBuffer.pixel c.fb x y = true) := by
  induction n with
  | zero =>
    refine ⟨fun x _ y _ => ⟨fun h => ?_, fun _ => rfl⟩, ?_⟩
    · obtain ⟨k, hk, _⟩ := h; omega
    · constructor
      · exact fun h => .inl h
      · rintro (h | ⟨x, _, y, _, ⟨k, hk, _⟩, _⟩)
        · exact h
        · omega
  | succ n ih =>
    obtain ⟨ihp, ihh⟩ := ih (by omega)
    rw [drawBits_succ]
    have hsucc : ∀ x y, RowCovers row (n + 1) ox oy x y ↔ RowCovers row n ox oy x y ∨
        (row.getLsbD (7 - n) = true ∧ (ox + n) % 64 = x ∧ oy % 32 = y) := by
      intro x y
      constructor
      · rintro ⟨k, hk, h⟩
        rcases Nat.lt_succ_iff_lt_or_eq.1 hk with hk | rfl
        · exact .inl ⟨k, hk, h⟩
        · exact .inr h
      · rintro (⟨k, hk, h⟩ | h)
        · exact ⟨k, by omega, h⟩
        · exact ⟨n, by omega, h⟩
    have hdisj : ¬ RowCovers row n ox oy ((ox + n) % 64) (oy % 32) := by
      rintro ⟨k, hk, _, hx, _⟩
      omega
    cases hbit : row.getLsbD (7 - n) with
    | false =>
      simp only [drawBit, hsucc, hbit, Bool.false_eq_true, false_and, or_false, if_false]
      exact ⟨ihp, ihh⟩
    | true =>
      simp only [drawBit, if_true, hsucc, hbit, true_and]
      have hold := (ihp ((ox + n) % 64) (Nat.mod_lt _ (by decide)) (oy % 32) (Nat.mod_lt _ (by decide))).2 hdisj
      rw [FrameBuffer.pixel_mod, FrameBuffer.pixel_mod] at hold
      refine ⟨fun x hx y hy => ?_, ?_⟩
      · rw [FrameBuffer.pixel_flip, Nat.mod_eq_of_lt hx, Nat.mod_eq_of_lt hy]
        by_cases hhere : (ox + n) % 64 = x ∧ oy % 32 = y
        · obtain ⟨rfl, rfl⟩ := hhere
          refine ⟨fun _ => ?_, fun h => absurd (.inr ⟨rfl, rfl⟩) h⟩
          rw [if_pos ⟨rfl, rfl⟩, ((ihp _ hx _ hy).2 hdisj)]
        · rw [if_neg hhere]
          exact ⟨fun h => (ihp x hx y hy).1 (h.resolve_right hhere), fun h => (ihp x hx y hy).2 fun h' => h (.inl h')⟩
      · rw [Bool.or_eq_true, ihh, hold]
        constructor
        · rintro ((h | ⟨x, hx, y, hy, hc, hp⟩) | h)
          · exact .inl h
          · exact .inr ⟨x, hx, y, hy, .inl hc, hp⟩
          · exact .inr ⟨(ox + n) % 64, Nat.mod_lt _ (by decide), oy % 32, Nat.mod_lt _ (by decide), .inr ⟨rfl, rfl⟩,
              by rw [FrameBuffer.pixel_mod]; exact h⟩
        · rintro (h | ⟨x, hx, y, hy, hc | ⟨rfl, rfl⟩, hp⟩)
          · exact .inl (.inl h)
          · exact .inl (.inr ⟨x, hx, y, hy, hc, hp⟩)
          · exact .inr (by rw [FrameBuffer.pixel_mod] at hp; exact hp)

theorem drawRow_eq (row : Byte) (x y : Nat) (c : Canvas) : drawRow row x y c = drawBits row x y c 8 := rfl

/-- The pixels a sprite covers are those of its first row and those of the rows below it. -/
theorem covers_cons (row : Byte) (rows : List Byte) (ox oy x y : Nat) :
    Covers (row :: rows) ox oy x y ↔ RowCovers row 8 ox oy x y ∨ Covers rows ox (oy + 1) x y := by
  constructor
  · rintro ⟨r, c, hc, ⟨row', hrow, hbit⟩, hx, hy⟩
    cases r with
    | zero =>
      simp only [List.getElem?_cons_zero, Option.some.injEq] at hrow
      subst hrow
      exact .inl ⟨c, hc, hbit, hx, by simpa using hy⟩
    | succ r => exact .inr ⟨r, c, hc, ⟨row', by simpa using hrow, hbit⟩, hx, by rw [← hy]; congr 1; omega⟩
  · rintro (⟨c, hc, hbit, hx, hy⟩ | ⟨r, c, hc, ⟨row', hrow, hbit⟩, hx, hy⟩)
    · exact ⟨0, c, hc, ⟨row, rfl, hbit⟩, hx, by simpa using hy⟩
    · exact ⟨r + 1, c, hc, ⟨row', by simpa using hrow, hbit⟩, hx, by rw [← hy]; congr 1; omega⟩

/-- Drawing a sprite of at most 32 rows flips what it covers and nothing else, and the hit is with the pixels as they
were before the draw. -/
theorem drawRows_spec (rows : List Byte) (ox oy : Nat) (c : Canvas) (hlen : rows.length ≤ 32) :
    (∀ x < 64, ∀ y < 32,
      (Covers rows ox oy x y → FrameBuffer.pixel (drawRows ox rows oy c).fb x y = !FrameBuffer.pixel c.fb x y) ∧
      (¬ Covers rows ox oy x y → FrameBuffer.pixel (drawRows ox rows oy c).fb x y = FrameBuffer.pixel c.fb x y)) ∧
    ((drawRows ox rows oy c).hit = true ↔
      c.hit = true ∨ ∃ x < 64, ∃ y < 32, Covers rows ox oy x y ∧ FrameBuffer.pixel c.fb x y = true) := by
  induction rows generalizing oy c with
  | nil =>
    have hno : ∀ x y, ¬ Covers [] ox oy x y := by
      rintro x y ⟨r, k, _, ⟨row, hrow, _⟩, _⟩
      simp at hrow
    refine ⟨fun x _ y _ => ⟨fun h => absurd h (hno x y), fun _ => rfl⟩, ?_⟩
    constructor
    · exact fun h => .inl h
    · rintro (h | ⟨x, _, y, _, h, _⟩)
      · exact h
      · exact absurd h (hno x y)
  | cons row rows ih =>
    simp only [List.length_cons] at hlen
    obtain ⟨rp, rh⟩ := drawBits_spec row ox oy c 8 (Nat.le_refl 8)
    obtain ⟨ihp, ihh⟩ := ih (oy + 1) (drawRow row ox oy c) (by omega)
    rw [drawRow_eq] at ihp ihh
    have hdisj : ∀ x y, Covers rows ox (oy + 1) x y → ¬ RowCovers row 8 ox oy x y := by
      rintro x y ⟨r, k, _, ⟨row', hrow, _⟩, _, hy⟩ ⟨_, _, _, _, hy'⟩
      have hr : r < rows.length := by
        by_contra hge
        rw [List.getElem?_eq_none (by omega)] at hrow
        simp at hrow
      omega
    simp only [drawRows, drawRow_eq, covers_cons]
    refine ⟨fun x hx y hy => ?_, ?_⟩
    · by_cases hrest : Covers rows ox (oy + 1) x y
      · refine ⟨fun _ => ?_, fun h => absurd (.inr hrest) h⟩
        rw [(ihp x hx y hy).1 hrest, (rp x hx y hy).2 (hdisj x y hrest)]
      · rw [(ihp x hx y hy).2 hrest]
        exact ⟨fun h => (rp x hx y hy).1 (h.resolve_right hrest), fun h => (rp x hx y hy).2 fun h' => h (.inl h')⟩
    · rw [ihh, rh]
      constructor
      · rintro ((h | ⟨x, hx, y, hy, hc, hp⟩) | ⟨x, hx, y, hy, hc, hp⟩)
        · exact .inl h
        · exact .inr ⟨x, hx, y, hy, .inl hc, hp⟩
        · exact .inr ⟨x, hx, y, hy, .inr hc, by rwa [(rp x hx y hy).2 (hdisj x y hc)] at hp⟩
      · rintro (h | ⟨x, hx, y, hy, hc | hc, hp⟩)
        · exact .inl (.inl h)
        · exact .inl (.inr ⟨x, hx, y, hy, hc, hp⟩)
        · exact .inr ⟨x, hx, y, hy, hc, by rwa [(rp x hx y hy).2 (hdisj x y hc)]⟩

end Sys2Proof.Machine
end

