-- ==== Sys2Proof/Laws/Memory.lean ====
section
/-!
SUPPORT. The laws of memory: read after write, the canonical form and that every operation keeps it, and that equal reads
are equal data (spec/20_memory.md R55, R60).
-/

namespace Sys2Proof.Machine

variable {font : Font}

/-! ### Cells -/

theorem Cells.get_cons (a a' : Nat) (b : Byte) (m : List Host.Cell) (h : ∀ c ∈ m, a < c.1) :
    Cells.get font (Cells.cons font a b m) a' = if a' = a then b else Cells.get font m a' := by
  have hget : ∀ m : List Host.Cell, (∀ c ∈ m, a < c.1) → Cells.get font m a = background font a := by
    intro m
    induction m with
    | nil => intro _; rfl
    | cons c m ih =>
      intro h
      have hc := h c (by simp)
      simp only [Cells.get]
      rw [if_neg (by omega), ih fun d hd => h d (by simp [hd])]
  unfold Cells.cons
  split
  · rename_i hb
    split
    · subst_vars; exact hget m h
    · rfl
  · simp [Cells.get]

theorem Cells.wf_tail {c : Host.Cell} {m : List Host.Cell} (h : Cells.wf font (c :: m)) : Cells.wf font m :=
  ⟨(List.pairwise_cons.1 h.1).2, fun d hd => h.2 d (by simp [hd])⟩

theorem Cells.wf_head {c : Host.Cell} {m : List Host.Cell} (h : Cells.wf font (c :: m)) : ∀ d ∈ m, c.1 < d.1 :=
  (List.pairwise_cons.1 h.1).1

/-- Read after write. -/
theorem Cells.get_set (m : List Host.Cell) (h : Cells.wf font m) (a a' : Nat) (b : Byte) :
    Cells.get font (Cells.set font m a b) a' = if a' = a then b else Cells.get font m a' := by
  induction m with
  | nil => exact Cells.get_cons a a' b [] (by simp)
  | cons c m ih =>
    obtain ⟨k, v⟩ := c
    have htail := Cells.wf_head h
    simp only [Cells.set]
    split
    · refine Cells.get_cons a a' b _ fun d hd => ?_
      rcases List.mem_cons.1 hd with rfl | hd
      · assumption
      · have := htail d hd
        simp only at this
        omega
    · split
      · rename_i hk
        subst hk
        rw [Cells.get_cons _ a' b m htail]
        simp only [Cells.get]
        split <;> rfl
      · simp only [Cells.get, ih (Cells.wf_tail h)]
        split
        · rw [if_neg (by omega)]
        · rfl

theorem Cells.mem_cons {a : Nat} {b : Byte} {m : List Host.Cell} {c : Host.Cell} (h : c ∈ Cells.cons font a b m) :
    (c = (a, b) ∧ b ≠ background font a) ∨ c ∈ m := by
  unfold Cells.cons at h
  split at h
  · exact .inr h
  · rcases List.mem_cons.1 h with rfl | h
    · exact .inl ⟨rfl, by assumption⟩
    · exact .inr h

theorem Cells.mem_set {m : List Host.Cell} {a : Nat} {b : Byte} {c : Host.Cell} (h : c ∈ Cells.set font m a b) :
    (c = (a, b) ∧ b ≠ background font a) ∨ c ∈ m := by
  induction m with
  | nil => exact Cells.mem_cons h
  | cons d m ih =>
    obtain ⟨k, v⟩ := d
    simp only [Cells.set] at h
    split at h
    · exact Cells.mem_cons h
    · split at h
      · rcases Cells.mem_cons h with h | h
        · exact .inl h
        · exact .inr (by simp [h])
      · rcases List.mem_cons.1 h with h | h
        · exact .inr (by simp [h])
        · rcases ih h with h | h
          · exact .inl h
          · exact .inr (by simp [h])

theorem Cells.pairwise_cons {a : Nat} {b : Byte} {m : List Host.Cell} (hm : m.Pairwise (fun c d => c.1 < d.1))
    (h : ∀ c ∈ m, a < c.1) : (Cells.cons font a b m).Pairwise (fun c d => c.1 < d.1) := by
  unfold Cells.cons
  split
  · exact hm
  · exact List.pairwise_cons.2 ⟨h, hm⟩

/-- A write inside the address space keeps the canonical form. -/
theorem Cells.wf_set {m : List Host.Cell} (h : Cells.wf font m) {a : Nat} (ha : a < Config.memSize) (b : Byte) :
    Cells.wf font (Cells.set font m a b) := by
  refine ⟨?_, fun c hc => ?_⟩
  · induction m with
    | nil => exact Cells.pairwise_cons (by simp) (by simp)
    | cons c m ih =>
      obtain ⟨k, v⟩ := c
      have htail := Cells.wf_head h
      simp only [Cells.set]
      split
      · refine Cells.pairwise_cons h.1 fun d hd => ?_
        rcases List.mem_cons.1 hd with rfl | hd
        · assumption
        · have := htail d hd
          simp only at this
          omega
      · split
        · subst_vars
          exact Cells.pairwise_cons (Cells.wf_tail h).1 htail
        · refine List.pairwise_cons.2 ⟨fun d hd => ?_, ih (Cells.wf_tail h)⟩
          rcases Cells.mem_set hd with ⟨rfl, _⟩ | hd
          · simp only
            omega
          · exact htail d hd
  · rcases Cells.mem_set hc with ⟨rfl, hb⟩ | hc
    · exact ⟨ha, hb⟩
    · exact h.2 c hc

theorem Cells.get_of_mem {m : List Host.Cell} (h : Cells.wf font m) {c : Host.Cell} (hc : c ∈ m) : Cells.get font m c.1 = c.2 := by
  induction m with
  | nil => simp at hc
  | cons d m ih =>
    have hhead := Cells.wf_head h
    rcases List.mem_cons.1 hc with rfl | hc
    · simp [Cells.get]
    · have := hhead c hc
      simp only [Cells.get]
      rw [if_neg (by omega), ih (Cells.wf_tail h) hc]

theorem Cells.get_of_not_mem {m : List Host.Cell} {a : Nat} (h : ∀ c ∈ m, c.1 ≠ a) :
    Cells.get font m a = background font a := by
  induction m with
  | nil => rfl
  | cons d m ih =>
    have := h d (by simp)
    simp only [Cells.get]
    rw [if_neg (by omega), ih fun c hc => h c (by simp [hc])]

/-- The memory of 4096 given bytes is in canonical form. -/
theorem Cells.wf_ofBytes (bytes : Vector Byte Config.memSize) : Cells.wf font (Cells.ofBytes font bytes) := by
  unfold Cells.ofBytes
  refine ⟨?_, fun c hc => ?_⟩
  · refine List.Pairwise.filterMap _ (R := fun (i j : Fin Config.memSize) => i.val < j.val) ?_ ?_
    · intro i j hij c hc d hd
      simp only [Option.ite_none_left_eq_some, Option.some.injEq] at hc hd
      rw [← hc.2, ← hd.2]
      exact hij
    · exact List.pairwise_lt_finRange _
  · obtain ⟨i, _, hi⟩ := List.mem_filterMap.1 hc
    simp only [Option.ite_none_left_eq_some, Option.some.injEq] at hi
    rw [← hi.2]
    exact ⟨i.isLt, hi.1⟩

/-- The memory of 4096 given bytes reads as those bytes. -/
theorem Cells.get_ofBytes (bytes : Vector Byte Config.memSize) (a : Fin Config.memSize) :
    Cells.get font (Cells.ofBytes font bytes) a.val = bytes[a] := by
  by_cases h : bytes[a] = background font a.val
  · rw [h]
    refine Cells.get_of_not_mem fun c hc heq => ?_
    unfold Cells.ofBytes at hc
    obtain ⟨i, _, hi⟩ := List.mem_filterMap.1 hc
    simp only [Option.ite_none_left_eq_some, Option.some.injEq] at hi
    have : i = a := Fin.ext (by rw [← heq, ← hi.2])
    subst this
    exact hi.1 h
  · refine Cells.get_of_mem (Cells.wf_ofBytes bytes) (c := (a.val, bytes[a])) ?_
    unfold Cells.ofBytes
    exact List.mem_filterMap.2 ⟨a, List.mem_finRange a, if_neg h⟩

/-- Equal reads are equal data. -/
theorem Cells.ext_get {m m' : List Host.Cell} (h : Cells.wf font m) (h' : Cells.wf font m')
    (heq : ∀ a, Cells.get font m a = Cells.get font m' a) : m = m' := by
  induction m generalizing m' with
  | nil =>
    cases m' with
    | nil => rfl
    | cons d m' =>
      have := heq d.1
      rw [Cells.get_of_mem h' (by simp)] at this
      exact absurd this.symm (h'.2 d (by simp)).2
  | cons c m ih =>
    cases m' with
    | nil =>
      have := heq c.1
      rw [Cells.get_of_mem h (by simp)] at this
      exact absurd this (h.2 c (by simp)).2
    | cons d m' =>
      have hc := Cells.wf_head h
      have hd := Cells.wf_head h'
      have hlow : ¬ c.1 < d.1 := by
        intro hlt
        have := heq c.1
        rw [Cells.get_of_mem h (by simp), Cells.get_of_not_mem (m := d :: m')] at this
        · exact (h.2 c (by simp)).2 this
        · intro e he
          rcases List.mem_cons.1 he with rfl | he
          · omega
          · have := hd e he; omega
      have hhigh : ¬ d.1 < c.1 := by
        intro hlt
        have := heq d.1
        rw [Cells.get_of_mem h' (by simp), Cells.get_of_not_mem (m := c :: m)] at this
        · exact (h'.2 d (by simp)).2 this.symm
        · intro e he
          rcases List.mem_cons.1 he with rfl | he
          · omega
          · have := hc e he; omega
      have hkey : c.1 = d.1 := by omega
      have hval : c.2 = d.2 := by
        have := heq c.1
        rwa [Cells.get_of_mem h (by simp), hkey, Cells.get_of_mem h' (by simp)] at this
      have htail : m = m' := by
        refine ih (Cells.wf_tail h) (Cells.wf_tail h') fun a => ?_
        by_cases ha : a = c.1
        · rw [Cells.get_of_not_mem fun e he => ?_, Cells.get_of_not_mem fun e he => ?_]
          · have := hd e he; omega
          · have := hc e he; omega
        · have := heq a
          simp only [Cells.get] at this
          rwa [if_neg ha, if_neg (by omega)] at this
      rw [htail, Prod.ext hkey hval]

/-! ### Memory -/

@[simp] theorem Memory.set_font (m : Memory) (a : Nat) (b : Byte) : (m.set a b).font = m.font := rfl

@[simp] theorem Memory.setBytes_font (m : Memory) (base : Nat) (bytes : List Byte) :
    (m.setBytes base bytes).font = m.font := by
  induction bytes generalizing m base with
  | nil => rfl
  | cons b bs ih => exact ih (m.set base b) (base + 1)

/-- Read after write. -/
theorem Memory.get_set (m : Memory) (h : Memory.wf m) (a a' : Nat) (b : Byte) :
    Memory.get (Memory.set m a b) a' = if a' = a then b else Memory.get m a' := Cells.get_set m.cells h a a' b

/-- A write inside the address space keeps the canonical form. -/
theorem Memory.wf_set {m : Memory} (h : Memory.wf m) {a : Nat} (ha : a < Config.memSize) (b : Byte) :
    Memory.wf (Memory.set m a b) := Cells.wf_set h ha b

theorem Memory.wf_setBytes {m : Memory} (h : Memory.wf m) (bytes : List Byte) {base : Nat}
    (hb : base + bytes.length ≤ Config.memSize) : Memory.wf (Memory.setBytes m base bytes) := by
  induction bytes generalizing m base with
  | nil => exact h
  | cons b bs ih =>
    simp only [List.length_cons] at hb
    exact ih (Memory.wf_set h (by omega) b) (by omega)

/-- Read after a write of several bytes. -/
theorem Memory.get_setBytes {m : Memory} (h : Memory.wf m) (bytes : List Byte) {base : Nat}
    (hb : base + bytes.length ≤ Config.memSize) (a : Nat) :
    Memory.get (Memory.setBytes m base bytes) a =
      if base ≤ a then (bytes[a - base]?).getD (Memory.get m a) else Memory.get m a := by
  induction bytes generalizing m base with
  | nil => simp [Memory.setBytes]
  | cons b bs ih =>
    simp only [List.length_cons] at hb
    rw [Memory.setBytes, ih (Memory.wf_set h (by omega) b) (by omega), Memory.get_set m h]
    by_cases h1 : base + 1 ≤ a
    · have h2 : a - base = (a - (base + 1)) + 1 := by omega
      rw [if_pos h1, if_neg (by omega), if_pos (by omega), h2, List.getElem?_cons_succ]
    · rw [if_neg h1]
      by_cases h3 : a = base
      · subst h3; simp
      · rw [if_neg h3, if_neg (by omega)]

/-- Outside the bytes written, memory reads as before. -/
theorem Memory.get_setBytes_outside {m : Memory} (h : Memory.wf m) (bytes : List Byte) {base : Nat}
    (hb : base + bytes.length ≤ Config.memSize) {a : Nat} (ha : a < base ∨ base + bytes.length ≤ a) :
    Memory.get (Memory.setBytes m base bytes) a = Memory.get m a := by
  rw [Memory.get_setBytes h bytes hb]
  split
  · rw [List.getElem?_eq_none (by omega)]
    rfl
  · rfl

/-- Equal reads over one font are equal data. -/
theorem Memory.ext_get {m m' : Memory} (h : Memory.wf m) (h' : Memory.wf m') (hfont : m.font = m'.font)
    (heq : ∀ a, Memory.get m a = Memory.get m' a) : m = m' := by
  obtain ⟨font, cells⟩ := m
  obtain ⟨font', cells'⟩ := m'
  obtain rfl : font = font' := hfont
  exact congrArg (Memory.mk font) (Cells.ext_get h h' heq)

/-! ### The construction content (R57, R240) -/

/-- Glyph g is at 5g to 5g + 4. -/
theorem background_glyph (g : Fin 16) (k : Fin 5) : background font (5 * g.val + k.val) = font[g][k] := by
  have h1 : (5 * g.val + k.val) / 5 = g.val := by omega
  have h2 : (5 * g.val + k.val) % 5 = k.val := by omega
  rw [background, dif_pos (by omega)]
  simp only [h1, h2]
  rfl

/-- Above the font the content is 0. -/
theorem background_above {a : Nat} (h : 80 ≤ a) : background font a = 0x00#8 := dif_neg (by omega)

end Sys2Proof.Machine
end

