-- ==== Sys2Proof/Laws/Ops.lean ====
section
/-!
SUPPORT. What each shared operation can do, said once: byte ranges, fault entry, the call stack, the random draw, and the
transactions.
-/

namespace Sys2Proof.Machine

/-! ### Byte ranges (R51, R52, R157) -/

theorem inRange_iff (base n : Nat) : inRange base n = true ↔ n = 0 ∨ base + n ≤ 4096 := by
  simp [inRange]

theorem readBytes_eq_some {s : State} {base n : Nat} {bytes : List Byte} :
    readBytes s base n = some bytes ↔
      (n = 0 ∨ base + n ≤ 4096) ∧ bytes = (List.range n).map fun k => s.mem.get (base + k) := by
  simp only [readBytes, Option.ite_none_right_eq_some, inRange_iff, Option.some.injEq, eq_comm (b := bytes)]

theorem readBytes_eq_none {s : State} {base n : Nat} :
    readBytes s base n = none ↔ n ≠ 0 ∧ 4096 < base + n := by
  rw [readBytes, ite_eq_right_iff, inRange_iff]
  simp only [reduceCtorEq, imp_false, not_or, Nat.not_le, ne_eq]

theorem writeBytes_eq_some {s t : State} {base : Nat} {bytes : List Byte} :
    writeBytes s base bytes = some t ↔
      (bytes.length = 0 ∨ base + bytes.length ≤ 4096) ∧ t = { s with mem := s.mem.setBytes base bytes } := by
  simp only [writeBytes, Option.ite_none_right_eq_some, inRange_iff, Option.some.injEq, eq_comm (b := t)]

theorem writeBytes_eq_none {s : State} {base : Nat} {bytes : List Byte} :
    writeBytes s base bytes = none ↔ bytes.length ≠ 0 ∧ 4096 < base + bytes.length := by
  rw [writeBytes, ite_eq_right_iff, inRange_iff]
  simp only [reduceCtorEq, imp_false, not_or, Nat.not_le, ne_eq]

/-- A fetch succeeds exactly when pc + 1 is in range, and is big-endian (R53, R80). -/
theorem fetchWord_eq_some {s : State} {w : Word} :
    fetchWord s = some w ↔
      s.pc.toNat + 1 ≤ 0xFFF ∧ w = wordOfBytes (s.mem.get s.pc.toNat) (s.mem.get (s.pc.toNat + 1)) := by
  simp only [fetchWord, fetch, readBytes, inRange_iff]
  by_cases h : s.pc.toNat + 2 ≤ 4096
  · rw [if_pos (Or.inr h)]
    simp only [List.range_succ, List.range_zero, List.nil_append, List.map_cons, List.map_nil, List.cons_append,
      Nat.add_zero, Option.some.injEq, eq_comm (a := w)]
    exact ⟨fun e => ⟨by omega, e⟩, fun e => e.2⟩
  · rw [if_neg (by omega)]
    simp only [reduceCtorEq, false_iff, not_and]
    omega

theorem fetchWord_eq_none {s : State} : fetchWord s = none ↔ 0xFFF < s.pc.toNat + 1 := by
  constructor
  · intro h
    by_contra hlt
    have := fetchWord_eq_some.2 ⟨Nat.le_of_not_lt hlt, rfl⟩
    simp [h] at this
  · intro h
    cases hw : fetchWord s with
    | none => rfl
    | some w => have := (fetchWord_eq_some.1 hw).1; omega

/-! ### Faults (R211, R213) -/

@[simp] theorem raiseFault_halted (k : FaultKind) (p : Word) (o : Option Word) (s : State) :
    (raiseFault k p o s).halted = true := rfl
@[simp] theorem raiseFault_faultKind (k : FaultKind) (p : Word) (o : Option Word) (s : State) :
    (raiseFault k p o s).faultKind = k := rfl
@[simp] theorem raiseFault_faultPc (k : FaultKind) (p : Word) (o : Option Word) (s : State) :
    (raiseFault k p o s).faultPc = p := rfl
@[simp] theorem raiseFault_faultOpcode (k : FaultKind) (p : Word) (o : Option Word) (s : State) :
    (raiseFault k p o s).faultOpcode = o.getD 0#16 := rfl
@[simp] theorem raiseFault_faultOpcodeValid (k : FaultKind) (p : Word) (o : Option Word) (s : State) :
    (raiseFault k p o s).faultOpcodeValid = o.isSome := rfl
@[simp] theorem raiseFault_diag (k : FaultKind) (p : Word) (o : Option Word) (s : State) :
    (raiseFault k p o s).diag = s.diag := rfl
@[simp] theorem raiseFault_randIn (k : FaultKind) (p : Word) (o : Option Word) (s : State) :
    (raiseFault k p o s).randIn = s.randIn := rfl
@[simp] theorem raiseFault_freeCount (k : FaultKind) (p : Word) (o : Option Word) (s : State) :
    (raiseFault k p o s).freeCount = s.freeCount + 1 := rfl

theorem raiseFault_wf (k : FaultKind) (p : Word) (o : Option Word) (s : State) :
    Memory.wf (raiseFault k p o s).mem := Cells.wf_ofBytes _
@[simp] theorem raiseFault_params (k : FaultKind) (p : Word) (o : Option Word) (s : State) :
    (raiseFault k p o s).params = s.params := rfl

/-! ### The call stack (R101, R103) -/

/-- What CALL can do: push and jump, or fault. -/
theorem pushCall_cases (i : Instr) (target : Word) (s : State) :
    (∃ h : s.stack.sp.val < s.stack.capacity,
      pushCall i target s = .next { s with stack := s.stack.push s.pc h, pc := target }) ∨
    (s.stack.sp.val = s.stack.capacity ∧
      pushCall i target s = .next (raiseFault .stackOverflow (s.pc - 2#16) (some (encode i)) s)) := by
  by_cases h : s.stack.sp.val < s.stack.capacity
  · exact .inl ⟨h, dif_pos h⟩
  · exact .inr ⟨by omega, dif_neg h⟩

/-- What RET can do: pop and jump, or fault. -/
theorem popReturn_cases (i : Instr) (s : State) :
    (∃ h : 0 < s.stack.sp.val,
      popReturn i s = .next { s with stack := s.stack.pop, pc := s.stack.top h }) ∨
    (s.stack.sp.val = 0 ∧
      popReturn i s = .next (raiseFault .stackUnderflow (s.pc - 2#16) (some (encode i)) s)) := by
  by_cases h : 0 < s.stack.sp.val
  · exact .inl ⟨h, dif_pos h⟩
  · exact .inr ⟨by omega, dif_neg h⟩

/-! ### Memory instructions (R154 to R157) -/

/-- What a store through I can do: all of it, or a fault. -/
theorem storeAtI_cases (i : Instr) (bytes : List Byte) (s : State) :
    ((bytes.length = 0 ∨ s.ireg.toNat + bytes.length ≤ 4096) ∧
      storeAtI i bytes s = .next { s with mem := s.mem.setBytes s.ireg.toNat bytes }) ∨
    (bytes.length ≠ 0 ∧ 4096 < s.ireg.toNat + bytes.length ∧
      storeAtI i bytes s = .next (raiseFault .memOutOfRange (s.pc - 2#16) (some (encode i)) s)) := by
  unfold storeAtI State.base
  cases h : writeBytes s s.ireg.toNat bytes with
  | some t =>
    obtain ⟨hr, rfl⟩ := writeBytes_eq_some.1 h
    exact .inl ⟨hr, rfl⟩
  | none =>
    obtain ⟨h0, hr⟩ := writeBytes_eq_none.1 h
    exact .inr ⟨h0, hr, rfl⟩

/-! ### The key latch (R190 to R197) -/

theorem keyAt_eq_some {s : State} {x : RegNo} {b : Bool} :
    s.keyAt x = some b ↔ (s.reg x).toNat ≤ 15 ∧ s.key ((s.reg x).setWidth 4) = b := by
  simp only [State.keyAt, Option.ite_none_right_eq_some, Option.some.injEq]

theorem keyAt_eq_none {s : State} {x : RegNo} : s.keyAt x = none ↔ 15 < (s.reg x).toNat := by
  rw [State.keyAt, ite_eq_right_iff]
  simp

/-! ### The random draw (R132) -/

/-- What a draw can do: take the host's byte, or a free value. -/
theorem rand_cases (s : State) :
    (∃ b rest, s.randIn = b :: rest ∧ rand s = (b, { s with randIn := rest })) ∨
    (s.randIn = [] ∧ rand s = (Config.randByte s.freeCount, { s with freeCount := s.freeCount + 1 })) := by
  unfold rand
  split
  · rename_i b rest h
    exact .inl ⟨b, rest, h, rfl⟩
  · rename_i h
    exact .inr ⟨h, rfl⟩

/-! ### The step cycle (R84) -/

@[simp] theorem quiet_diag (s : State) : (quiet s).diag = none := rfl
@[simp] theorem quiet_mem (s : State) : (quiet s).mem = s.mem := rfl
@[simp] theorem quiet_params (s : State) : (quiet s).params = s.params := rfl
@[simp] theorem quiet_pc (s : State) : (quiet s).pc = s.pc := rfl
@[simp] theorem quiet_reg (s : State) (x : RegNo) : (quiet s).reg x = s.reg x := rfl
@[simp] theorem advance_pc (s : State) : (advance s).pc = s.pc + 2#16 := rfl
@[simp] theorem advance_mem (s : State) : (advance s).mem = s.mem := rfl
@[simp] theorem advance_params (s : State) : (advance s).params = s.params := rfl
@[simp] theorem advance_diag (s : State) : (advance s).diag = s.diag := rfl
@[simp] theorem advance_reg (s : State) (x : RegNo) : (advance s).reg x = s.reg x := rfl

/-- What a step can do, said once. -/
theorem step_cases (s : State) :
    (s.halted = true ∧ step s = .fault (.coreHalted s.faultKind s.faultPc s.faultOpcode s.faultOpcodeValid)) ∨
    (s.halted = false ∧ fetchWord s = none ∧
      step s = .next (raiseFault .fetchOutOfRange s.pc none (quiet s))) ∨
    (∃ w i, s.halted = false ∧ fetchWord s = some w ∧ decodeWord w = .ok i ∧
      step s = exec i (advance (quiet s))) ∨
    (∃ w e, s.halted = false ∧ fetchWord s = some w ∧ decodeWord w = .error e ∧
      step s = .next { advance (quiet s) with diag := some ⟨w, s.pc⟩ }) := by
  unfold step
  cases hh : s.halted with
  | true => exact .inl ⟨rfl, rfl⟩
  | false =>
    cases hw : fetchWord s with
    | none => exact .inr (.inl ⟨rfl, rfl, rfl⟩)
    | some w =>
      cases hd : decodeWord w with
      | ok i => exact .inr (.inr (.inl ⟨w, i, rfl, rfl, hd, by simp [hd]⟩))
      | error e => exact .inr (.inr (.inr ⟨w, e, rfl, rfl, hd, by simp [hd, unrecognized, Config.strictDecode]⟩))

end Sys2Proof.Machine
end

