-- ==== Sys2Proof/Laws/Frame.lean ====
section
/-!
SUPPORT. What each shared update leaves unchanged, as a frame (spec/00_scope.md R14), and what the draw, the key skips
and the key scan can do, said once.
-/

namespace Sys2Proof.Machine

/-! ### Frames -/

theorem Frame.of_setReg (s : State) (x : RegNo) (b : Byte) : Frame { regs := [x] } s (s.setReg x b) := by
  simp only [Frame, SameRecord, State.setReg_reg]
  refine ⟨fun r hr => ?_, by simp⟩
  rw [if_neg (by simpa using hr)]

theorem Frame.of_setReg_setFlag (s : State) (x : RegNo) (b : Byte) (c : Bool) :
    Frame { regs := [x, vF] } s ((s.setReg x b).setFlag c) := by
  simp only [Frame, SameRecord, State.setFlag_reg, State.setReg_reg]
  refine ⟨fun r hr => ?_, by simp⟩
  obtain ⟨hx, hf⟩ : r ≠ x ∧ r ≠ vF := by simpa using hr
  rw [if_neg hf, if_neg hx]

theorem Frame.of_shiftReg (vfLast : Bool) (out : Byte → Bool) (shift : Byte → Byte) (x : RegNo) (s : State) :
    Frame { regs := [x, vF] } s (shiftReg vfLast out shift x s) := by
  simp only [Frame, SameRecord, shiftReg, State.setFlag_reg, State.setReg_reg]
  refine ⟨fun r hr => ?_, by simp⟩
  obtain ⟨hx, hf⟩ : r ≠ x ∧ r ≠ vF := by simpa using hr
  rw [if_neg hx, if_neg hf]

theorem Frame.of_setPc (s : State) (target : Word) : Frame {} s (s.setPc target) := by
  simp [Frame, SameRecord]

theorem Frame.of_skipIf (s : State) (cond : Bool) : Frame {} s (s.skipIf cond) := by
  simp [Frame, SameRecord]

/-- A store of bytes through I changes those bytes alone. -/
theorem Frame.of_store (s : State) (bytes : List Byte) (h : Memory.wf s.mem)
    (hb : s.ireg.toNat + bytes.length ≤ Config.memSize) :
    Frame { store := (s.ireg.toNat, bytes.length) } s { s with mem := s.mem.setBytes s.ireg.toNat bytes } := by
  refine ⟨fun _ _ => rfl, fun _ => rfl, fun _ => rfl, fun _ => rfl, fun _ => rfl, fun _ => ⟨rfl, rfl⟩,
    fun _ => ⟨rfl, rfl⟩, fun a ha => ?_, rfl, ⟨rfl, rfl, rfl, rfl, rfl⟩, rfl, ?_⟩
  rotate_left
  · simp [State.params]
  exact Memory.get_setBytes_outside h bytes hb ha

theorem mem_regsUpToNo (x r : RegNo) : r ∈ regsUpToNo x ↔ r.toNat ≤ x.toNat := by
  have hr := r.isLt
  have hx := x.isLt
  simp only [regsUpToNo, List.mem_map, List.mem_range]
  constructor
  · rintro ⟨k, hk, rfl⟩
    rw [BitVec.toNat_ofNat, Nat.mod_eq_of_lt (by omega)]
    omega
  · exact fun h => ⟨r.toNat, by omega, by simp⟩

/-! ### The draw (R172) -/

/-- What a draw can do: paint the sprite at I, or fault. -/
theorem drawSprite_cases (originFirst : Bool) (i : Instr) (x y : RegNo) (n : Nibble) (s : State) :
    ((n.toNat = 0 ∨ s.ireg.toNat + n.toNat ≤ 4096) ∧ drawSprite originFirst i x y n s =
      .next (paint ((List.range n.toNat).map fun k => s.mem.get (s.ireg.toNat + k))
        ((if originFirst then s else s.setFlag false).reg x).toNat
        ((if originFirst then s else s.setFlag false).reg y).toNat (s.setFlag false))) ∨
    (n.toNat ≠ 0 ∧ 4096 < s.ireg.toNat + n.toNat ∧
      drawSprite originFirst i x y n s = .next (raiseFault .memOutOfRange (s.pc - 2#16) (some (encode i)) s)) := by
  unfold drawSprite State.base
  cases h : readBytes s s.ireg.toNat n.toNat with
  | some rows =>
    obtain ⟨hr, rfl⟩ := readBytes_eq_some.1 h
    exact .inl ⟨hr, rfl⟩
  | none =>
    obtain ⟨h0, hr⟩ := readBytes_eq_none.1 h
    exact .inr ⟨h0, hr, rfl⟩

/-- The registers a painted sprite leaves: VF is the collision flag, the others are as they were. -/
theorem paint_reg (rows : List Byte) (ox oy : Nat) (s : State) (r : RegNo) :
    (paint rows ox oy s).reg r = if r = vF then flagByte (drawRows ox rows oy ⟨s.fb, false⟩).hit else s.reg r :=
  State.setFlag_reg s _ r

/-! ### Keys (R191, R192, R194, R197) -/

/-- What a key skip can do: skip or not by the key named, or fault. -/
theorem skipOnKey_cases (i : Instr) (pressed : Bool) (x : RegNo) (s : State) :
    ((s.reg x).toNat ≤ 15 ∧
      skipOnKey i pressed x s = .next (s.skipIf (s.key ((s.reg x).setWidth 4) == pressed))) ∨
    (15 < (s.reg x).toNat ∧
      skipOnKey i pressed x s = .next (raiseFault .keyIndexOutOfRange (s.pc - 2#16) (some (encode i)) s)) := by
  unfold skipOnKey
  cases h : s.keyAt x with
  | some k =>
    obtain ⟨hr, rfl⟩ := keyAt_eq_some.1 h
    exact .inl ⟨hr, rfl⟩
  | none => exact .inr ⟨keyAt_eq_none.1 h, rfl⟩

/-- The scan gives the lowest pressed key among 0x0 to 0xE. -/
theorem firstKey_eq_some (s : State) (k : BitVec 4) (hk : k.toNat ≤ 0xE) (h : s.key k = true)
    (hlow : ∀ j : BitVec 4, j.toNat < k.toNat → s.key j = false) :
    s.firstKey = some (BitVec.ofNat 8 k.toNat) := by
  have hfind : ((List.range 15).find? fun k => s.key (BitVec.ofNat 4 k)) = some k.toNat := by
    rw [List.find?_range_eq_some]
    refine ⟨by simpa using h, by simp; omega, fun j hj => ?_⟩
    rw [hlow]
    · rfl
    · rw [BitVec.toNat_ofNat, Nat.mod_eq_of_lt (by omega)]
      exact hj
  rw [State.firstKey, hfind]
  rfl

/-- The scan gives nothing when none of the keys 0x0 to 0xE is pressed. -/
theorem firstKey_eq_none (s : State) (h : ∀ k : BitVec 4, k.toNat ≤ 0xE → s.key k = false) : s.firstKey = none := by
  rw [State.firstKey, Option.map_eq_none_iff, List.find?_eq_none]
  intro k hk
  rw [List.mem_range] at hk
  rw [h _ (by rw [BitVec.toNat_ofNat]; omega)]
  decide

end Sys2Proof.Machine
end

