-- ==== Sys2Proof/Laws/PerInstr.lean ====
section
/-!
SUPPORT. Statements made per instruction. OpcodeRow: the encoded word of an instruction has the fixed bits that its row of
spec/opcode_table.json gives (R85: every fixed bit of the pattern equals the bit of the word).
-/

namespace Sys2Proof.Laws.OpcodeRow

/-- The mask and match of an instruction's row in spec/opcode_table.json. -/
def row : Instr → Word × Word
  | .cls => (0xFFFF#16, 0x00E0#16)
  | .ret => (0xFFFF#16, 0x00EE#16)
  | .jpNnn _ => (0xF000#16, 0x1000#16)
  | .callNnn _ => (0xF000#16, 0x2000#16)
  | .seVxNn _ _ => (0xF000#16, 0x3000#16)
  | .sneVxNn _ _ => (0xF000#16, 0x4000#16)
  | .seVxVy _ _ => (0xF00F#16, 0x5000#16)
  | .ldVxNn _ _ => (0xF000#16, 0x6000#16)
  | .addVxNn _ _ => (0xF000#16, 0x7000#16)
  | .ldVxVy _ _ => (0xF00F#16, 0x8000#16)
  | .orVxVy _ _ => (0xF00F#16, 0x8001#16)
  | .andVxVy _ _ => (0xF00F#16, 0x8002#16)
  | .xorVxVy _ _ => (0xF00F#16, 0x8003#16)
  | .addVxVy _ _ => (0xF00F#16, 0x8004#16)
  | .subVxVy _ _ => (0xF00F#16, 0x8005#16)
  | .shrVx _ _ => (0xF00F#16, 0x8006#16)
  | .subnVxVy _ _ => (0xF00F#16, 0x8007#16)
  | .shlVx _ _ => (0xF00F#16, 0x800E#16)
  | .sneVxVy _ _ => (0xF00F#16, 0x9000#16)
  | .ldINnn _ => (0xF000#16, 0xA000#16)
  | .jpV0Nnn _ => (0xF000#16, 0xB000#16)
  | .rndVxNn _ _ => (0xF000#16, 0xC000#16)
  | .drwVxVyN _ _ _ => (0xF000#16, 0xD000#16)
  | .skpVx _ => (0xF0FF#16, 0xE09E#16)
  | .sknpVx _ => (0xF0FF#16, 0xE0A1#16)
  | .ldVxDt _ => (0xF0FF#16, 0xF007#16)
  | .ldVxK _ => (0xF0FF#16, 0xF00A#16)
  | .ldDtVx _ => (0xF0FF#16, 0xF015#16)
  | .ldStVx _ => (0xF0FF#16, 0xF018#16)
  | .addIVx _ => (0xF0FF#16, 0xF01E#16)
  | .ldFVx _ => (0xF0FF#16, 0xF029#16)
  | .ldBVx _ => (0xF0FF#16, 0xF033#16)
  | .ldIndVx _ => (0xF0FF#16, 0xF055#16)
  | .ldVxInd _ => (0xF0FF#16, 0xF065#16)

/-- The word of i has the fixed bits of its row. -/
def Statement (i : Instr) : Prop := encode i &&& (row i).1 = (row i).2

theorem cls : Statement .cls := rfl

theorem ret : Statement .ret := rfl

theorem jpNnn (nnn : Addr12) : Statement (.jpNnn nnn) := by
  unfold Statement encode row
  ext i hi
  simp only [BitVec.getElem_and, BitVec.getElem_append]
  interval_cases i <;> simp

theorem callNnn (nnn : Addr12) : Statement (.callNnn nnn) := by
  unfold Statement encode row
  ext i hi
  simp only [BitVec.getElem_and, BitVec.getElem_append]
  interval_cases i <;> simp

theorem seVxNn (x : RegNo) (nn : Byte) : Statement (.seVxNn x nn) := by
  unfold Statement encode row
  ext i hi
  simp only [BitVec.getElem_and, BitVec.getElem_append]
  interval_cases i <;> simp

theorem sneVxNn (x : RegNo) (nn : Byte) : Statement (.sneVxNn x nn) := by
  unfold Statement encode row
  ext i hi
  simp only [BitVec.getElem_and, BitVec.getElem_append]
  interval_cases i <;> simp

theorem seVxVy (x : RegNo) (y : RegNo) : Statement (.seVxVy x y) := by
  unfold Statement encode row
  ext i hi
  simp only [BitVec.getElem_and, BitVec.getElem_append]
  interval_cases i <;> simp

theorem ldVxNn (x : RegNo) (nn : Byte) : Statement (.ldVxNn x nn) := by
  unfold Statement encode row
  ext i hi
  simp only [BitVec.getElem_and, BitVec.getElem_append]
  interval_cases i <;> simp

theorem addVxNn (x : RegNo) (nn : Byte) : Statement (.addVxNn x nn) := by
  unfold Statement encode row
  ext i hi
  simp only [BitVec.getElem_and, BitVec.getElem_append]
  interval_cases i <;> simp

theorem ldVxVy (x : RegNo) (y : RegNo) : Statement (.ldVxVy x y) := by
  unfold Statement encode row
  ext i hi
  simp only [BitVec.getElem_and, BitVec.getElem_append]
  interval_cases i <;> simp

theorem orVxVy (x : RegNo) (y : RegNo) : Statement (.orVxVy x y) := by
  unfold Statement encode row
  ext i hi
  simp only [BitVec.getElem_and, BitVec.getElem_append]
  interval_cases i <;> simp

theorem andVxVy (x : RegNo) (y : RegNo) : Statement (.andVxVy x y) := by
  unfold Statement encode row
  ext i hi
  simp only [BitVec.getElem_and, BitVec.getElem_append]
  interval_cases i <;> simp

theorem xorVxVy (x : RegNo) (y : RegNo) : Statement (.xorVxVy x y) := by
  unfold Statement encode row
  ext i hi
  simp only [BitVec.getElem_and, BitVec.getElem_append]
  interval_cases i <;> simp

theorem addVxVy (x : RegNo) (y : RegNo) : Statement (.addVxVy x y) := by
  unfold Statement encode row
  ext i hi
  simp only [BitVec.getElem_and, BitVec.getElem_append]
  interval_cases i <;> simp

theorem subVxVy (x : RegNo) (y : RegNo) : Statement (.subVxVy x y) := by
  unfold Statement encode row
  ext i hi
  simp only [BitVec.getElem_and, BitVec.getElem_append]
  interval_cases i <;> simp

theorem shrVx (x : RegNo) (y : RegNo) : Statement (.shrVx x y) := by
  unfold Statement encode row
  ext i hi
  simp only [BitVec.getElem_and, BitVec.getElem_append]
  interval_cases i <;> simp

theorem subnVxVy (x : RegNo) (y : RegNo) : Statement (.subnVxVy x y) := by
  unfold Statement encode row
  ext i hi
  simp only [BitVec.getElem_and, BitVec.getElem_append]
  interval_cases i <;> simp

theorem shlVx (x : RegNo) (y : RegNo) : Statement (.shlVx x y) := by
  unfold Statement encode row
  ext i hi
  simp only [BitVec.getElem_and, BitVec.getElem_append]
  interval_cases i <;> simp

theorem sneVxVy (x : RegNo) (y : RegNo) : Statement (.sneVxVy x y) := by
  unfold Statement encode row
  ext i hi
  simp only [BitVec.getElem_and, BitVec.getElem_append]
  interval_cases i <;> simp

theorem ldINnn (nnn : Addr12) : Statement (.ldINnn nnn) := by
  unfold Statement encode row
  ext i hi
  simp only [BitVec.getElem_and, BitVec.getElem_append]
  interval_cases i <;> simp

theorem jpV0Nnn (nnn : Addr12) : Statement (.jpV0Nnn nnn) := by
  unfold Statement encode row
  ext i hi
  simp only [BitVec.getElem_and, BitVec.getElem_append]
  interval_cases i <;> simp

theorem rndVxNn (x : RegNo) (nn : Byte) : Statement (.rndVxNn x nn) := by
  unfold Statement encode row
  ext i hi
  simp only [BitVec.getElem_and, BitVec.getElem_append]
  interval_cases i <;> simp

theorem drwVxVyN (x : RegNo) (y : RegNo) (n : Nibble) : Statement (.drwVxVyN x y n) := by
  unfold Statement encode row
  ext i hi
  simp only [BitVec.getElem_and, BitVec.getElem_append]
  interval_cases i <;> simp

theorem skpVx (x : RegNo) : Statement (.skpVx x) := by
  unfold Statement encode row
  ext i hi
  simp only [BitVec.getElem_and, BitVec.getElem_append]
  interval_cases i <;> simp

theorem sknpVx (x : RegNo) : Statement (.sknpVx x) := by
  unfold Statement encode row
  ext i hi
  simp only [BitVec.getElem_and, BitVec.getElem_append]
  interval_cases i <;> simp

theorem ldVxDt (x : RegNo) : Statement (.ldVxDt x) := by
  unfold Statement encode row
  ext i hi
  simp only [BitVec.getElem_and, BitVec.getElem_append]
  interval_cases i <;> simp

theorem ldVxK (x : RegNo) : Statement (.ldVxK x) := by
  unfold Statement encode row
  ext i hi
  simp only [BitVec.getElem_and, BitVec.getElem_append]
  interval_cases i <;> simp

theorem ldDtVx (x : RegNo) : Statement (.ldDtVx x) := by
  unfold Statement encode row
  ext i hi
  simp only [BitVec.getElem_and, BitVec.getElem_append]
  interval_cases i <;> simp

theorem ldStVx (x : RegNo) : Statement (.ldStVx x) := by
  unfold Statement encode row
  ext i hi
  simp only [BitVec.getElem_and, BitVec.getElem_append]
  interval_cases i <;> simp

theorem addIVx (x : RegNo) : Statement (.addIVx x) := by
  unfold Statement encode row
  ext i hi
  simp only [BitVec.getElem_and, BitVec.getElem_append]
  interval_cases i <;> simp

theorem ldFVx (x : RegNo) : Statement (.ldFVx x) := by
  unfold Statement encode row
  ext i hi
  simp only [BitVec.getElem_and, BitVec.getElem_append]
  interval_cases i <;> simp

theorem ldBVx (x : RegNo) : Statement (.ldBVx x) := by
  unfold Statement encode row
  ext i hi
  simp only [BitVec.getElem_and, BitVec.getElem_append]
  interval_cases i <;> simp

theorem ldIndVx (x : RegNo) : Statement (.ldIndVx x) := by
  unfold Statement encode row
  ext i hi
  simp only [BitVec.getElem_and, BitVec.getElem_append]
  interval_cases i <;> simp

theorem ldVxInd (x : RegNo) : Statement (.ldVxInd x) := by
  unfold Statement encode row
  ext i hi
  simp only [BitVec.getElem_and, BitVec.getElem_append]
  interval_cases i <;> simp

end Sys2Proof.Laws.OpcodeRow
end

