-- ==== Sys2Proof/Laws/Ports.lean ====
section
/-!
SUPPORT. The frame-buffer port bit by bit (spec/60_exceptions.md R225): a bit of a number made of bits, and a pixel in the
rows laid end to end.
-/

namespace Sys2Proof.Machine

theorem bitsToNat_testBit (l : List Bool) (k : Nat) : (bitsToNat l).testBit k = (l[k]?).getD false := by
  induction l generalizing k with
  | nil => simp [bitsToNat]
  | cons b bs ih =>
    cases k with
    | zero => cases b <;> simp [bitsToNat, Nat.testBit_zero]
    | succ k =>
      have hdiv : bitsToNat (b :: bs) / 2 = bitsToNat bs := by
        cases b
        · simp [bitsToNat]
        · simp [bitsToNat]
          omega
      rw [Nat.testBit_succ, hdiv, ih, List.getElem?_cons_succ]

/-- Entry n * y + x of rows of length n laid end to end is entry x of row y. -/
theorem getElem?_flatMap_toList {n : Nat} (rows : List (Vector Bool n)) (x y : Nat) (hx : x < n) :
    (rows.flatMap Vector.toList)[n * y + x]? = (rows[y]?).map fun r => r[x] := by
  induction rows generalizing y with
  | nil => simp
  | cons r rs ih =>
    cases y with
    | zero => simp [List.getElem?_append, hx]
    | succ y =>
      rw [List.flatMap_cons, List.getElem?_append_right (by simp [Nat.mul_add]; omega)]
      rw [show n * (y + 1) + x - r.toList.length = n * y + x by simp [Nat.mul_add]; omega, ih]
      rw [List.getElem?_cons_succ]

end Sys2Proof.Machine
end

