-- ==== Sys2Proof/Machine/Listing.lean ====
section
/-!
DEFINITION. The written form of an instruction and of a program line (spec/30_encoding.md R89, D28). It has no semantic
weight: nothing in the machine reads it.
-/

namespace Sys2Proof.Machine

/-- A number as exactly n upper-case hex digits (R11). -/
def hexDigits : Nat → Nat → String
  | 0, _ => ""
  | n + 1, k => hexDigits n (k / 16) ++ String.singleton (Nat.digitChar (k % 16)).toUpper

/-- A register, `V0` to `VF` (R89). -/
def asmReg (x : RegNo) : String := "V" ++ hexDigits 1 x.toNat

/-- A byte immediate (R89). -/
def asmByte (nn : Byte) : String := "0x" ++ hexDigits 2 nn.toNat

/-- An address (R89). -/
def asmAddr (nnn : Addr12) : String := "0x" ++ hexDigits 3 nnn.toNat

/-- Mnemonic and operands, destination first (R85, R89). R89 writes NN and NNN in hex and does not say how N is written: that
DRW's N is decimal with no `0x` is a DESIGN CHOICE (log 21). -/
def asm : Instr → String
  | .cls => "CLS"
  | .ret => "RET"
  | .jpNnn nnn => "JP " ++ asmAddr nnn
  | .callNnn nnn => "CALL " ++ asmAddr nnn
  | .seVxNn x nn => "SE " ++ asmReg x ++ ", " ++ asmByte nn
  | .sneVxNn x nn => "SNE " ++ asmReg x ++ ", " ++ asmByte nn
  | .seVxVy x y => "SE " ++ asmReg x ++ ", " ++ asmReg y
  | .ldVxNn x nn => "LD " ++ asmReg x ++ ", " ++ asmByte nn
  | .addVxNn x nn => "ADD " ++ asmReg x ++ ", " ++ asmByte nn
  | .ldVxVy x y => "LD " ++ asmReg x ++ ", " ++ asmReg y
  | .orVxVy x y => "OR " ++ asmReg x ++ ", " ++ asmReg y
  | .andVxVy x y => "AND " ++ asmReg x ++ ", " ++ asmReg y
  | .xorVxVy x y => "XOR " ++ asmReg x ++ ", " ++ asmReg y
  | .addVxVy x y => "ADD " ++ asmReg x ++ ", " ++ asmReg y
  | .subVxVy x y => "SUB " ++ asmReg x ++ ", " ++ asmReg y
  | .shrVx x _ => "SHR " ++ asmReg x
  | .subnVxVy x y => "SUBN " ++ asmReg x ++ ", " ++ asmReg y
  | .shlVx x _ => "SHL " ++ asmReg x
  | .sneVxVy x y => "SNE " ++ asmReg x ++ ", " ++ asmReg y
  | .ldINnn nnn => "LD I, " ++ asmAddr nnn
  | .jpV0Nnn nnn => "JP V0, " ++ asmAddr nnn
  | .rndVxNn x nn => "RND " ++ asmReg x ++ ", " ++ asmByte nn
  | .drwVxVyN x y n => "DRW " ++ asmReg x ++ ", " ++ asmReg y ++ ", " ++ toString n.toNat
  | .skpVx x => "SKP " ++ asmReg x
  | .sknpVx x => "SKNP " ++ asmReg x
  | .ldVxDt x => "LD " ++ asmReg x ++ ", DT"
  | .ldVxK x => "LD " ++ asmReg x ++ ", K"
  | .ldDtVx x => "LD DT, " ++ asmReg x
  | .ldStVx x => "LD ST, " ++ asmReg x
  | .addIVx x => "ADD I, " ++ asmReg x
  | .ldFVx x => "LD F, " ++ asmReg x
  | .ldBVx x => "LD B, " ++ asmReg x
  | .ldIndVx x => "LD [I], " ++ asmReg x
  | .ldVxInd x => "LD " ++ asmReg x ++ ", [I]"

/-- One line of a program listing: `addr: word  MNEMONIC operands` (R89). -/
def listingLine (addr : Nat) (i : Instr) : String :=
  hexDigits 3 addr ++ ": " ++ hexDigits 4 (encode i).toNat ++ "  " ++ asm i

end Sys2Proof.Machine
end

