-- ==== Sys2Proof/Tests/Slice0.lean ====
section
/-!
SUPPORT. Tests with expected results from spec/95_test_vectors.md (its vector is named in each docstring) or worked out
from the rules cited; words written out from the encoding table of spec/30_encoding.md R85; and for every statement with
hypotheses a witness that meets them.
-/

namespace Sys2Proof.Machine

/-! ### Helpers -/

/-- The construction state with some registers set. -/
def regs (l : List (RegNo × Byte)) : State := l.foldl (fun s p => s.setReg p.1 p.2) State.reset

/-- One step of the word w placed at pc. -/
def run (w : Nat) (s : State) : Result := step (s.withFetchWord 16 w)

/-- The result is a next state with the property. -/
def gives (r : Result) (p : State → Bool) : Bool :=
  match r with
  | .next t => p t
  | .fault _ => false
  | .refused _ => false

/-- The next state is halted with this record. -/
def haltsWith (kind : FaultKind) (pc opcode : Word) (valid : Bool) (t : State) : Bool :=
  t.halted && t.faultKind == kind && t.faultPc == pc && t.faultOpcode == opcode && t.faultOpcodeValid == valid

/-- The lit pixels (x, y) of the rows given. -/
def lit (rows : List Nat) (s : State) : List (Nat × Nat) :=
  rows.flatMap fun y =>
    ((List.range 64).filter fun x => FrameBuffer.pixel s.fb x y).map fun x => (x, y)

/-- A state with some bytes of memory written. -/
def bytesAt (a : Nat) (bytes : List Byte) (s : State) : State := { s with mem := s.mem.setBytes a bytes }

/-- A state with a stack of the given depth in 16, every entry 0x0202. -/
def deep (n : Fin 17) (s : State) : State := 
  { s with stack := ⟨16, Vector.replicate 16 0x0202#16, n, by decide⟩ }

/-- The construction state with 17 return addresses and a font of bytes 0x3C (R10). -/
def seventeen : State := State.resetOf ⟨17, Vector.replicate 16 (Vector.replicate 5 0x3C#8), by decide⟩

/-! ### Well-formedness: each check refuses an ill-formed term -/

/-- `SHR VX` is written with Y = 0 (R89). -/
theorem test_assembled_refuses : (Instr.shrVx 0 1).assembled = false := by decide

/-- An image of 3585 bytes does not fit (R242). -/
theorem test_imageFits_refuses : imageFits (List.replicate 3585 0#8) = false := by
  rw [imageFits, List.length_replicate]
  decide

/-- Offset 3584 is outside the load window (R225). -/
theorem test_loadOffsetOk_refuses : loadOffsetOk 3584#12 = false := by decide

/-- A call stack of 15 entries is too small (R27). -/
theorem test_stackCapacityOk_refuses : stackCapacityOk 15 = false := by decide

/-- No model takes 15 as STACK_CAPACITY; 64 it takes (R27, I4). -/
theorem test_paramsOf : paramsOf 15 Config.hardware.font = none ∧
    (paramsOf 64 Config.hardware.font).map Config.Params.stackCapacity = some 64 := by decide

/-! ### Decoding: words written out from R85 -/

theorem test_decode_fixed : decodeWord 0b0000000011100000#16 = .ok .cls ∧ decodeWord 0b0000000011101110#16 = .ok .ret := by
  decide

theorem test_decode_nnn :
    decodeWord 0b0001001000110100#16 = .ok (.jpNnn 0x234) ∧ decodeWord 0b0010001100000000#16 = .ok (.callNnn 0x300) ∧
    decodeWord 0b1010000100100011#16 = .ok (.ldINnn 0x123) ∧ decodeWord 0b1011111111111111#16 = .ok (.jpV0Nnn 0xFFF) := by
  decide

theorem test_decode_xnn :
    decodeWord 0b0011000000000101#16 = .ok (.seVxNn 0 5) ∧ decodeWord 0b0100111100000110#16 = .ok (.sneVxNn 0xF 6) ∧
    decodeWord 0b0110101010110110#16 = .ok (.ldVxNn 0xA 0xB6) ∧
    decodeWord 0b0111000000000001#16 = .ok (.addVxNn 0 1) ∧
    decodeWord 0b1100000100001111#16 = .ok (.rndVxNn 1 0x0F) := by
  decide

theorem test_decode_xy :
    decodeWord 0b0101000100100000#16 = .ok (.seVxVy 1 2) ∧ decodeWord 0b1001000100100000#16 = .ok (.sneVxVy 1 2) ∧
    decodeWord 0b1101000100100101#16 = .ok (.drwVxVyN 1 2 5) := by
  decide

theorem test_decode_family8 :
    decodeWord 0b1000000000010000#16 = .ok (.ldVxVy 0 1) ∧ decodeWord 0b1000000000010001#16 = .ok (.orVxVy 0 1) ∧
    decodeWord 0b1000000000010010#16 = .ok (.andVxVy 0 1) ∧ decodeWord 0b1000000000010011#16 = .ok (.xorVxVy 0 1) ∧
    decodeWord 0b1000000000010100#16 = .ok (.addVxVy 0 1) ∧ decodeWord 0b1000000000010101#16 = .ok (.subVxVy 0 1) ∧
    decodeWord 0b1000000000010110#16 = .ok (.shrVx 0 1) ∧ decodeWord 0b1000000000010111#16 = .ok (.subnVxVy 0 1) ∧
    decodeWord 0b1000000000011110#16 = .ok (.shlVx 0 1) := by
  decide

theorem test_decode_familyE :
    decodeWord 0b1110001110011110#16 = .ok (.skpVx 3) ∧ decodeWord 0b1110001110100001#16 = .ok (.sknpVx 3) := by
  decide

theorem test_decode_familyF :
    decodeWord 0b1111001000000111#16 = .ok (.ldVxDt 2) ∧ decodeWord 0b1111001000001010#16 = .ok (.ldVxK 2) ∧
    decodeWord 0b1111001000010101#16 = .ok (.ldDtVx 2) ∧ decodeWord 0b1111001000011000#16 = .ok (.ldStVx 2) ∧
    decodeWord 0b1111001000011110#16 = .ok (.addIVx 2) ∧ decodeWord 0b1111001000101001#16 = .ok (.ldFVx 2) ∧
    decodeWord 0b1111001000110011#16 = .ok (.ldBVx 2) ∧ decodeWord 0b1111001001010101#16 = .ok (.ldIndVx 2) ∧
    decodeWord 0b1111001001100101#16 = .ok (.ldVxInd 2) := by
  decide

/-- Unrecognized words, by class (R86), and too few bytes (R81). -/
theorem test_decode_refuses :
    decodeWord 0x0000#16 = .error .family0 ∧ decodeWord 0x00E1#16 = .error .family0 ∧
    decodeWord 0x5121#16 = .error .family5 ∧ decodeWord 0x8008#16 = .error .family8 ∧
    decodeWord 0x812F#16 = .error .family8 ∧ decodeWord 0x9121#16 = .error .family9 ∧
    decodeWord 0xE000#16 = .error .familyE ∧ decodeWord 0xF000#16 = .error .familyF ∧
    decode [0x60#8] = .error .truncated := by
  decide

/-- The program of W8 as bytes: 60 05, 61 03, 80 14 (spec/95, P1). -/
theorem test_decode_bytes :
    decode [0x60#8, 0x05#8, 0x61#8] = .ok (.ldVxNn 0 5, [0x61#8]) ∧ decodeTableWord 16 0x8014 = some (.addVxVy 0 1) ∧
    encodeBytes (.addVxVy 0 1) = [0x80#8, 0x14#8] := by
  decide

/-- Listing lines of P1, P2 and P4, and the shift written with no Y (R89). -/
theorem test_listing :
    listingLine 0x200 (.ldVxNn 0 5) = "200: 6005  LD V0, 0x05" ∧ listingLine 0x206 (.ldVxInd 2) = "206: F265  LD V2, [I]" ∧
    listingLine 0x20A (.drwVxVyN 1 2 5) = "20A: D125  DRW V1, V2, 5" ∧ asm (.shrVx 3 0) = "SHR V3" := by
  decide

/-! ### One step, from the vectors of spec/95_test_vectors.md -/

/-- F1: the popped entry stays. -/
theorem test_ret : gives (run 0x00EE (deep 1 { State.reset with pc := 0x300#16 })) (fun t =>
    t.pc == 0x202 && t.stack.sp.val == 0 && t.stack.entry 0 == some 0x202) = true := by decide

/-- F2. -/
theorem test_ret_underflow : gives (run 0x00EE State.reset)
    (haltsWith .stackUnderflow 0x200 0x00EE true) = true := by decide

/-- F3 and F5. -/
theorem test_jpNnn : gives (run 0x1234 State.reset) (fun t => t.pc == 0x234) = true ∧
    gives (run 0x1FFF State.reset) (fun t => t.pc == 0xFFF) = true := by decide

/-- F7, and F9 at 0xFFE. -/
theorem test_callNnn :
    gives (run 0x2300 (deep 15 State.reset)) (fun t =>
      t.pc == 0x300 && t.stack.sp.val == 16 && t.stack.entry 15 == some 0x202) = true ∧
    gives (run 0x2400 { State.reset with pc := 0xFFE#16 }) (fun t =>
      t.pc == 0x400 && t.stack.entry 0 == some 0x1000) = true := by decide

/-- F8. -/
theorem test_callNnn_overflow : gives (run 0x2300 (deep 16 State.reset))
    (haltsWith .stackOverflow 0x200 0x2300 true) = true := by decide

/-- Another STACK_CAPACITY (R27, I4): with 17 entries the 17th call goes through, and construction keeps the 17. -/
theorem test_capacity_argument :
    gives (run 0x2300 { seventeen with stack := { seventeen.stack with sp := 16 } }) (fun t =>
      t.stack.sp.val == 17 && t.stack.entry 16 == some 0x202) = true ∧
    (construct seventeen).stack.capacity = 17 := by decide

/-- F10 and F11. -/
theorem test_seVxNn : gives (run 0x3005 (regs [(0, 5)])) (fun t => t.pc == 0x204) = true ∧
    gives (run 0x3006 (regs [(0, 5)])) (fun t => t.pc == 0x202) = true := by decide

/-- F12 and F13. -/
theorem test_sneVxNn : gives (run 0x4006 (regs [(0, 5)])) (fun t => t.pc == 0x204) = true ∧
    gives (run 0x4005 (regs [(0, 5)])) (fun t => t.pc == 0x202) = true := by decide

/-- F15 and F16. -/
theorem test_seVxVy : gives (run 0x5120 (regs [(1, 7), (2, 7)])) (fun t => t.pc == 0x204) = true ∧
    gives (run 0x5120 (regs [(1, 7), (2, 8)])) (fun t => t.pc == 0x202) = true := by decide

/-- F18 and F19. -/
theorem test_sneVxVy : gives (run 0x9120 (regs [(1, 7), (2, 8)])) (fun t => t.pc == 0x204) = true ∧
    gives (run 0x9120 (regs [(1, 7), (2, 7)])) (fun t => t.pc == 0x202) = true := by decide

/-- F22 and F23. -/
theorem test_jpV0Nnn : gives (run 0xBFFF (regs [(0, 0xFF)])) (fun t => t.pc == 0x10FE) = true ∧
    gives (run 0xB123 (regs [(1, 0x50)])) (fun t => t.pc == 0x123) = true := by decide

/-- B1. -/
theorem test_ldVxNn : gives (run 0x6AB6 State.reset) (fun t => t.reg 0xA == 0xB6 && t.pc == 0x202) = true := by decide

/-- B3 and B5. -/
theorem test_addVxNn : gives (run 0x7001 (regs [(0, 0xFF), (vF, 0x55)])) (fun t => t.reg 0 == 0 && t.reg vF == 0x55) = true ∧
    gives (run 0x7F01 (regs [(vF, 1)])) (fun t => t.reg vF == 2) = true := by decide

/-- B6. -/
theorem test_ldVxVy : gives (run 0x8010 (regs [(0, 0x11), (1, 0x42)])) (fun t => t.reg 0 == 0x42 && t.reg 1 == 0x42) = true := by
  decide

/-- B7. -/
theorem test_orVxVy : gives (run 0x8011 (regs [(0, 0xF0), (1, 0x0F), (vF, 0x55)])) (fun t =>
    t.reg 0 == 0xFF && t.reg vF == 0x55) = true := by decide

/-- B8. -/
theorem test_andVxVy : gives (run 0x8012 (regs [(0, 0xF0), (1, 0x3C), (vF, 0x55)])) (fun t =>
    t.reg 0 == 0x30 && t.reg vF == 0x55) = true := by decide

/-- B9. -/
theorem test_xorVxVy : gives (run 0x8013 (regs [(0, 0xF0), (1, 0x3C), (vF, 0x55)])) (fun t =>
    t.reg 0 == 0xCC && t.reg vF == 0x55) = true := by decide

/-- A1, and A7 with X = VF. -/
theorem test_addVxVy : gives (run 0x8014 (regs [(0, 0xFF), (1, 1)])) (fun t => t.reg 0 == 0 && t.reg vF == 1) = true ∧
    gives (run 0x8F14 (regs [(vF, 0xFF), (1, 1)])) (fun t => t.reg vF == 1) = true := by decide

/-- S2, and S7 with Y = VF. -/
theorem test_subVxVy : gives (run 0x8015 (regs [(0, 3), (1, 5)])) (fun t => t.reg 0 == 0xFE && t.reg vF == 0) = true ∧
    gives (run 0x80F5 (regs [(0, 0x10), (vF, 1)])) (fun t => t.reg 0 == 0x0F && t.reg vF == 1) = true := by decide

/-- S9 and S10. -/
theorem test_subnVxVy : gives (run 0x8017 (regs [(0, 5), (1, 3)])) (fun t => t.reg 0 == 0xFE && t.reg vF == 0) = true ∧
    gives (run 0x8017 (regs [(0, 9), (1, 9)])) (fun t => t.reg 0 == 0 && t.reg vF == 1) = true := by decide

/-- H5, and H6 with X = VF. -/
theorem test_shrVx : gives (run 0x8016 (regs [(0, 4), (1, 0xFF)])) (fun t => t.reg 0 == 2 && t.reg vF == 0) = true ∧
    gives (run 0x8F06 (regs [(vF, 0xFF)])) (fun t => t.reg vF == 0) = true := by decide

/-- H9, and H14 with X = VF. -/
theorem test_shlVx : gives (run 0x800E (regs [(0, 0x81)])) (fun t => t.reg 0 == 2 && t.reg vF == 1) = true ∧
    gives (run 0x8F0E (regs [(vF, 0xFF)])) (fun t => t.reg vF == 2) = true := by decide

/-- C1: the draw comes from the host. -/
theorem test_rndVxNn : gives (stepWith 0xAB (State.reset.withFetchWord 16 0xC00F)) (fun t =>
    t.reg 0 == 0x0B && t.randIn == []) = true := by decide

/-- M1. -/
theorem test_ldINnn : gives (run 0xA123 State.reset) (fun t => t.ireg == 0x123) = true := by decide

/-- M2 and M3. -/
theorem test_addIVx : gives (run 0xF01E { regs [(0, 1)] with ireg := 0xFFFF#16 }) (fun t => t.ireg == 0 && t.reg vF == 0) = true ∧
    gives (run 0xF01E { regs [(0, 1)] with ireg := 0x0FFF#16 }) (fun t => t.ireg == 0x1000) = true := by decide

/-- M5 and M8. -/
theorem test_ldFVx : gives (run 0xF029 (regs [(0, 0x0A)])) (fun t => t.ireg == 0x32) = true ∧
    gives (run 0xF029 (regs [(0, 0xFF)])) (fun t => t.ireg == 0x4FB) = true := by decide

/-- M11, and M14 at the top of memory. -/
theorem test_ldBVx : gives (run 0xF033 { regs [(0, 0xFF)] with ireg := 0x300#16 }) (fun t =>
      [0x2FF, 0x300, 0x301, 0x302, 0x303].map t.mem.get == [0, 2, 5, 5, 0] && t.ireg == 0x300) = true ∧
    gives (run 0xF033 { regs [(0, 1)] with ireg := 0xFFD#16 }) (fun t => t.mem.get 0xFFF == 1) = true := by decide

/-- M15. -/
theorem test_ldBVx_out_of_range : gives (run 0xF033 { regs [(0, 1)] with ireg := 0xFFE#16 })
    (haltsWith .memOutOfRange 0x200 0xF033 true) = true := by decide

/-- M16. -/
theorem test_ldIndVx : gives (run 0xF155 { regs [(0, 0x0A), (1, 1), (2, 7)] with ireg := 0x400#16 }) (fun t =>
    [0x400, 0x401, 0x402].map t.mem.get == [0x0A, 1, 0] && t.ireg == 0x400) = true := by decide

/-- M18. -/
theorem test_ldIndVx_out_of_range : gives (run 0xFF55 { State.reset with ireg := 0xFF1#16 })
    (haltsWith .memOutOfRange 0x200 0xFF55 true) = true := by decide

/-- M20. -/
theorem test_ldVxInd : gives (run 0xF265 (bytesAt 0x300 [1, 8, 2, 9] { regs [(3, 0x33)] with ireg := 0x300#16 })) (fun t =>
    [0, 1, 2, 3].map t.reg == [1, 8, 2, 0x33] && t.ireg == 0x300) = true := by decide

/-- M22. -/
theorem test_ldVxInd_out_of_range : gives (run 0xFF65 { State.reset with ireg := 0xFF1#16 })
    (haltsWith .memOutOfRange 0x200 0xFF65 true) = true := by decide

/-- D13: pixels (1, 1) and (63, 31) were lit. -/
theorem test_cls : gives (run 0x00E0 { regs [(vF, 0x33)] with fb := FrameBuffer.flip (FrameBuffer.flip FrameBuffer.clear 1 1) 63 31 })
    (fun t => lit [1, 31] t == [] && t.dirty && t.reg vF == 0x33) = true := by decide

/-- D4: the wrapped origin; and D2: a collision, with (5, 5) left alone. -/
theorem test_drwVxVyN :
    gives (run 0xD011 (bytesAt 0x300 [0x81] { regs [(0, 200), (1, 33)] with ireg := 0x300#16 })) (fun t =>
      lit [0, 1, 2] t == [(8, 1), (15, 1)] && t.reg vF == 0 && t.dirty) = true ∧
    gives (run 0xD011 { State.reset with fb := FrameBuffer.flip (FrameBuffer.flip FrameBuffer.clear 0 0) 5 5 }) (fun t =>
      lit [0, 1, 5] t == [(1, 0), (2, 0), (3, 0), (5, 5)] && t.reg vF == 1) = true := by decide

/-- D9: the origin is VF as it was; and D6: no row, no read, no fault. -/
theorem test_drwVxVyN_origin_and_empty :
    gives (run 0xDF11 (bytesAt 0x300 [0x80] { regs [(vF, 3), (1, 4)] with ireg := 0x300#16 })) (fun t =>
      lit [3, 4, 5] t == [(3, 4)] && t.reg vF == 0) = true ∧
    gives (run 0xD010 { regs [(vF, 0x55)] with ireg := 0xFFFF#16 }) (fun t =>
      lit [0] t == [] && t.reg vF == 0 && t.dirty) = true := by decide

/-- K1, and K6: no such key. -/
theorem test_skpVx : gives (run 0xE09E (setKeys 0x0020 (regs [(0, 5)]))) (fun t => t.pc == 0x204) = true ∧
    gives (run 0xE09E (regs [(0, 0x10)])) (haltsWith .keyIndexOutOfRange 0x200 0xE09E true) = true := by decide

/-- K3 and K4. -/
theorem test_sknpVx : gives (run 0xE0A1 (regs [(0, 5)])) (fun t => t.pc == 0x204) = true ∧
    gives (run 0xE0A1 (setKeys 0x0020 (regs [(0, 5)]))) (fun t => t.pc == 0x202) = true := by decide

/-- K13. -/
theorem test_ldVxDt : gives (run 0xF007 { State.reset with dt := 0x3C#8 }) (fun t => t.reg 0 == 0x3C && t.dt == 0x3C) = true := by
  decide

/-- K9, and K10: key F alone leaves it waiting. -/
theorem test_ldVxK : gives (run 0xF00A (setKeys 0x0088 State.reset)) (fun t => t.reg 0 == 3 && t.pc == 0x202) = true ∧
    gives (run 0xF00A (setKeys 0x8000 (regs [(0, 0x44)]))) (fun t => t.reg 0 == 0x44 && t.pc == 0x200) = true := by decide

/-- K14. -/
theorem test_ldDtVx : gives (run 0xF015 (regs [(0, 0x3C)])) (fun t => t.dt == 0x3C && t.st == 0) = true := by decide

/-- K16. -/
theorem test_ldStVx : gives (run 0xF118 (regs [(1, 2)])) (fun t => t.st == 2 && t.dt == 0) = true := by decide

/-- E4: no skip, and the diagnostic carries the word and its address. -/
theorem test_unrecognized : gives (run 0x5121 (regs [(1, 7), (2, 7)])) (fun t =>
    t.pc == 0x202 && t.diag == some ⟨0x5121, 0x200⟩ && !t.halted) = true := by decide

/-- E9, and E11: an odd pc is legal. -/
theorem test_fetch : gives (step { State.reset with pc := 0xFFF#16 }) (haltsWith .fetchOutOfRange 0xFFF 0 false) = true ∧
    gives (run 0x6042 { State.reset with pc := 0x201#16 }) (fun t => t.reg 0 == 0x42 && t.pc == 0x203) = true := by decide

/-- K17 and K18. -/
theorem test_tick : (tick { State.reset with dt := 1#8 }).dt = 0 ∧ (tick { State.reset with dt := 1#8 }).st = 0 ∧
    (tick { State.reset with st := 2#8 }).st = 1 ∧ (tick { State.reset with st := 2#8 }).dt = 0 := by decide

/-- R32: bytes at keys 0, 3 and F, any nonzero value being pressed. -/
theorem test_keys_of_bytes : keysOfBytes #v[1, 0, 0, 0xFF, 0, 0, 0, 0, 0, 0, 0, 0, 0, 0, 0, 2] = 0x8009#16 := by decide

/-- R57: glyph F is at 0x04B, and the byte after it is 0. -/
theorem test_font : [0x04B, 0x04C, 0x04D, 0x04E, 0x04F, 0x050].map State.reset.mem.get = [0xF0, 0x80, 0xF0, 0x80, 0x80, 0x00] := by
  decide

/-- Another FONT_DATA (R57, I7): its bytes are at 0x000 to 0x04F, and 0x050 still reads 0. -/
theorem test_font_argument : [0x000, 0x04F, 0x050].map seventeen.mem.get = [0x3C, 0x3C, 0x00] := by decide

/-- The codes of R210 at the fault_kind port. -/
theorem test_fault_codes : [FaultKind.none, .fetchOutOfRange, .memOutOfRange, .stackOverflow, .stackUnderflow,
    .keyIndexOutOfRange].map FaultKind.code = [0, 1, 2, 3, 4, 5] := by decide

/-- The diagnostic port after E1, and silent after a recognized word (R216, R225). -/
theorem test_diag_port :
    gives (run 0x0000 State.reset) (fun t => (ports t).diagValid && (ports t).diagOpcode == 0 && (ports t).diagAddr == 0x200) = true ∧
    gives (run 0x1200 { State.reset with diag := some ⟨1, 2⟩ }) (fun t => !(ports t).diagValid) = true := by decide

/-- The diagnostic is not latched: it is over after a tick, a latch write or a consumed dirty flag (R216, R225). -/
theorem test_diag_pulse :
    gives (run 0x0000 State.reset) (fun t => [tick t, setKeys 1 t, consumeDirty t].all fun u => !(ports u).diagValid) =
      true := by decide

/-- A byte loaded at offset 0 is at 0x200; nothing loads after a step (R242). -/
theorem test_session :
    (match Session.run [.loadByte 0 0x60, .loadByte 1 0x05, .setKeys 0, .step 0, .tick] Session.powerOn with
      | .next h => h.core.reg 0 == 5 && h.core.pc == 0x202 && h.started
      | .fault _ => false
      | .refused _ => false) = true ∧
    (match Session.run [.step 0, .loadByte 0 0x60] Session.powerOn with
      | .next _ => false
      | .fault _ => false
      | .refused r => r == .loadAfterFirstStep) = true := by decide

/-! ### Witnesses: a state and operands that meet the hypotheses of each statement, clause by clause -/

/-- A state whose next word is w, with pc at 0x200. -/
def about (w : Nat) (s : State) : State := s.withFetchWord 16 w

/-- EncodeOfDecodeIsTheWord. -/
theorem witness_encode_of_decode : decodeWord 0x8126#16 = .ok (.shrVx 1 2) := by decide

/-- StepRunsTheDecodedInstruction, at the last address a word can be fetched from. -/
theorem witness_step_runs : (about 0x6001 { State.reset with pc := 0xFFE#16 }).halted = false ∧
    (about 0x6001 { State.reset with pc := 0xFFE#16 }).pc.toNat + 1 = 0xFFF ∧
    decodeWord ((about 0x6001 { State.reset with pc := 0xFFE#16 }).mem.get 0xFFE ++
      (about 0x6001 { State.reset with pc := 0xFFE#16 }).mem.get 0xFFF) = .ok (.ldVxNn 0 1) := by decide

/-- UnrecognizedWordOnlyAdvancesAndReports, at the last address a word can be fetched from. -/
theorem witness_unrecognized : ({ State.reset with pc := 0xFFE#16 } : State).halted = false ∧
    ({ State.reset with pc := 0xFFE#16 } : State).pc.toNat + 1 = 0xFFF ∧
    decodeWord (State.reset.mem.get 0xFFE ++ State.reset.mem.get 0xFFF) = .error .family0 := by decide

/-- FetchIsBigEndianOrFaults: pc = 0xFFE, and pc = 0xFFF. -/
theorem witness_fetch : State.reset.halted = false ∧ (0xFFE#16 : Word).toNat ≤ 0xFFE ∧ 0xFFE < (0xFFF#16 : Word).toNat := by
  decide

/-- HaltedCoreRefusesEveryStep. -/
theorem witness_halted : Halted .stackUnderflow 0x200#16 0x00EE#16 true
    { State.reset with
      halted := true
      faultKind := .stackUnderflow
      faultPc := 0x200#16
      faultOpcode := 0x00EE#16
      faultOpcodeValid := true } := by
  unfold Halted; decide

/-- RegisterSkips: a selector nibble that is not 0. -/
theorem witness_skips : (0xF#4 : Nibble) ≠ 0#4 := by decide

/-- CallSavesTheReturnAddress and ReturnUndoesCall: the last free slot, and a full stack. -/
theorem witness_call : (deep 15 State.reset).stack.sp.val < (deep 15 State.reset).stack.capacity ∧
    (deep 16 State.reset).stack.sp.val = (deep 16 State.reset).stack.capacity := by decide

/-- ReturnUndoesCall: a state with the stack that the call left, and another pc. -/
theorem witness_return_undoes_call : ∃ t, exec (.callNnn 0x300) (deep 15 State.reset) = .next t ∧
    ({ t with pc := 0x302#16 } : State).stack = t.stack := ⟨_, rfl, rfl⟩

/-- ReturnPopsTheLastAddress: one entry, and none. -/
theorem witness_return : 0 < (deep 1 State.reset).stack.sp.val ∧ State.reset.stack.sp.val = 0 := by decide

/-- AddGivesSumAndCarry, SubtractGivesDifferenceAndNoBorrow and ShiftsMoveTheLostBitToVF: a destination below VF, and VF. -/
theorem witness_destination : (0xE#4 : RegNo) ≠ vF ∧ (0xF#4 : RegNo) = vF := by decide

/-- RandomIsADrawMasked: a draw of the host's. -/
theorem witness_draw : ({ State.reset with randIn := [0xAB#8] } : State).randIn = 0xAB#8 :: [] := rfl

/-- The reset memory is canonical. -/
theorem reset_mem_wf : Memory.wf State.reset.mem := by decide

/-- BcdStore: I + 2 = 0xFFF, and 0x1000. -/
theorem witness_bcd : Memory.wf State.reset.mem ∧ ({ State.reset with ireg := 0xFFD#16 } : State).ireg.toNat + 2 = 0xFFF ∧
    ({ State.reset with ireg := 0xFFE#16 } : State).ireg.toNat + 2 = 0x1000 := by decide

/-- RegisterStore and RegisterLoad: I + X = 0xFFF, and 0x1000; a register up to X. -/
theorem witness_store_load : Memory.wf State.reset.mem ∧
    ({ State.reset with ireg := 0xFF0#16 } : State).ireg.toNat + (0xF#4 : RegNo).toNat = 0xFFF ∧
    ({ State.reset with ireg := 0xFF1#16 } : State).ireg.toNat + (0xF#4 : RegNo).toNat = 0x1000 ∧
    (0xF#4 : RegNo).toNat ≤ (0xF#4 : RegNo).toNat := by decide

/-- StoredCodeIsFetched: two bytes stored at the top of memory, and the fetch of them. -/
theorem witness_stored_code : ∃ t, Memory.wf ({ regs [(0, 0x12), (1, 0x34)] with ireg := 0xFFE#16 } : State).mem ∧
    1 ≤ (1#4 : RegNo).toNat ∧
    ({ regs [(0, 0x12), (1, 0x34)] with ireg := 0xFFE#16 } : State).ireg.toNat + (1#4 : RegNo).toNat ≤ 0xFFF ∧
    exec (.ldIndVx 1) { regs [(0, 0x12), (1, 0x34)] with ireg := 0xFFE#16 } = .next t ∧
    ({ t with pc := 0xFFE#16 } : State).mem = t.mem ∧ ({ t with pc := 0xFFE#16 } : State).pc = 0xFFE#16 :=
  ⟨_, by decide, by decide, by decide, rfl, rfl, rfl⟩

/-- DrawFlipsCoveredPixels: no row, the last row at 0xFFF, and the first one past it. -/
theorem witness_draw_range : (0#4 : Nibble) = 0 ∧
    ({ State.reset with ireg := 0xFF1#16 } : State).ireg.toNat + (0xF#4 : Nibble).toNat - 1 = 0xFFF ∧
    (0xF#4 : Nibble) ≠ 0 ∧ 0xFFF < ({ State.reset with ireg := 0xFF2#16 } : State).ireg.toNat + (0xF#4 : Nibble).toNat - 1 := by
  decide

/-- DrawFlipsCoveredPixels: glyph 0 covers (0, 0) and not (4, 0); a lit covered pixel is a collision. -/
theorem witness_draw_covers : Covers [0xF0#8] 0 0 0 0 ∧ ¬ Covers [0xF0#8] 0 0 4 0 ∧
    FrameBuffer.pixel (FrameBuffer.flip FrameBuffer.clear 0 0) 0 0 = true := by
  refine ⟨⟨0, 0, by decide, ⟨0xF0#8, rfl, by decide⟩, rfl, rfl⟩, ?_, by decide⟩
  rintro ⟨r, c, hc, ⟨row, hrow, hbit⟩, hx, hy⟩
  cases r with
  | zero =>
    simp only [List.getElem?_cons_zero, Option.some.injEq] at hrow
    subst hrow
    have hc4 : c = 4 := by omega
    subst hc4
    exact absurd hbit (by decide)
  | succ r => simp at hrow

/-- DrawTwiceRestores: a sprite drawn, and drawn again from the state it left; and a sprite of zero bytes. -/
theorem witness_draw_twice : ∃ t t', ((1#4 : Nibble) = 0 ∨ State.reset.ireg.toNat + (1#4 : Nibble).toNat - 1 ≤ 0xFFF) ∧
    exec (.drwVxVyN 0 1 1) State.reset = .next t ∧ t.fb = t.fb ∧ t.reg 0 = State.reset.reg 0 ∧
    t.reg 1 = State.reset.reg 1 ∧ t.ireg = State.reset.ireg ∧ t.mem = State.reset.mem ∧
    exec (.drwVxVyN 0 1 1) t = .next t' ∧ State.reset.mem.get 0x50 = 0#8 :=
  ⟨_, _, by decide, rfl, rfl, by decide, by decide, rfl, rfl, rfl, by decide⟩

/-- KeySkips: key 0xF, and the first value that is no key. -/
theorem witness_key_index : ((regs [(0, 0xF)]).reg 0).toNat = (0xF#4 : BitVec 4).toNat ∧ 0xF < ((regs [(0, 0x10)]).reg 0).toNat := by
  decide

/-- AwaitKeyTakesTheLowest: key 0xE alone, and key 0xF alone. -/
theorem witness_await : ((0xE#4 : BitVec 4).toNat ≤ 0xE ∧ (setKeys 0x4000 State.reset).key 0xE = true ∧
      ∀ j : BitVec 4, j.toNat < (0xE#4 : BitVec 4).toNat → (setKeys 0x4000 State.reset).key j = false) ∧
    ∀ k : BitVec 4, k.toNat ≤ 0xE → (setKeys 0x8000 State.reset).key k = false := by decide

/-- WaitingForAKeyStaysInPlace, with key 0xF pressed. -/
theorem witness_waiting : (about 0xF30A (setKeys 0x8000 State.reset)).halted = false ∧
    nextInstr (about 0xF30A (setKeys 0x8000 State.reset)) = some (.ldVxK 3) ∧
    ∀ k : BitVec 4, k.toNat ≤ 0xE → (about 0xF30A (setKeys 0x8000 State.reset)).key k = false := by decide

/-- StepHaltsWithTheFaultOfItsInstruction: a fetch fault, and an instruction's. -/
theorem witness_step_halts : (∃ t, step { State.reset with pc := 0xFFF#16 } = .next t ∧ t.halted = true) ∧
    ∃ t, step (about 0x00EE State.reset) = .next t ∧ t.halted = true := ⟨⟨_, rfl, rfl⟩, ⟨_, rfl, rfl⟩⟩

/-- ResetLeavesTheConstructionState: the address after the font, the last address, and the last entry of the stack. -/
theorem witness_reset_addresses : 0x050 ≤ 0x050 ∧ 0x050 ≤ 0xFFF ∧ 0xFFF ≤ 0xFFF ∧
    15 < Config.hardware.stackCapacity := by decide

/-- StepKeepsTheInvariant and SessionKeepsTheInvariant: a state with the largest pc and a full stack, and its step. -/
theorem witness_invariant : Inv { deep 16 State.reset with pc := 0x10FE#16 } ∧
    ∃ t, step { deep 16 State.reset with pc := 0x10FE#16 } = .next t := by
  refine ⟨⟨by decide, ⟨rfl, rfl, rfl, rfl⟩, fun _ => by decide, fun _ k w hk hw => ?_⟩, _, rfl⟩
  have hk16 : k < 16 := hk
  have hw' : (Vector.replicate 16 0x0202#16)[k]? = some w := hw
  rw [Vector.getElem?_eq_getElem hk16, Vector.getElem_replicate] at hw'
  cases hw'
  decide

/-- StepKeepsTheParameters: a step that goes on, and one that faults. -/
theorem witness_parameters : (∃ t, step (about 0x1200 seventeen) = .next t ∧ t.halted = false) ∧
    ∃ t, step (about 0x00EE seventeen) = .next t ∧ t.halted = true := ⟨⟨_, rfl, rfl⟩, ⟨_, rfl, rfl⟩⟩

/-- SessionKeepsTheInvariant: transactions that all go through. -/
theorem witness_session : ∃ h', Session.run [.setKeys 0x0020, .tick, .consumeDirty, .step 0, .construct]
    ⟨deep 16 State.reset, true⟩ = .next h' := ⟨_, rfl⟩

/-- EveryInstructionStaysInItsFootprint. -/
theorem witness_footprint : ∃ t, Memory.wf State.reset.mem ∧ exec (.ldBVx 0) State.reset = .next t ∧ t.halted = false :=
  ⟨_, reset_mem_wf, rfl, rfl⟩

/-- VFChangesOnlyByItsWriters. -/
theorem witness_vf_changes : ∃ t, State.reset.halted = false ∧ step (about 0x8015 State.reset) = .next t ∧
    t.halted = false ∧ t.reg vF ≠ (about 0x8015 State.reset).reg vF := ⟨_, rfl, rfl, rfl, by decide⟩

/-- MemoryChangesOnlyByStores: the last byte of a store. -/
theorem witness_memory_changes : ∃ t, Memory.wf (about 0xF033 { regs [(0, 7)] with ireg := 0xFFD#16 }).mem ∧
    step (about 0xF033 { regs [(0, 7)] with ireg := 0xFFD#16 }) = .next t ∧ t.halted = false ∧
    t.mem.get 0xFFF ≠ (about 0xF033 { regs [(0, 7)] with ireg := 0xFFD#16 }).mem.get 0xFFF :=
  ⟨_, by decide, rfl, rfl, by decide⟩

/-- StateChangesOnlyByItsInstructions: I, DT and ST change. -/
theorem witness_i_and_timers_change :
    (∃ t, step (about 0xA123 State.reset) = .next t ∧ t.halted = false ∧ t.ireg ≠ (about 0xA123 State.reset).ireg) ∧
    (∃ t, step (about 0xF015 (regs [(0, 1)])) = .next t ∧ t.halted = false ∧ t.dt ≠ (about 0xF015 (regs [(0, 1)])).dt) ∧
    (∃ t, step (about 0xF018 (regs [(0, 1)])) = .next t ∧ t.halted = false ∧ t.st ≠ (about 0xF018 (regs [(0, 1)])).st) :=
  ⟨⟨_, rfl, rfl, by decide⟩, ⟨_, rfl, rfl, by decide⟩, ⟨_, rfl, rfl, by decide⟩⟩

/-- StateChangesOnlyByItsInstructions: SP, the stack and a pixel change; a dirty buffer stays dirty. -/
theorem witness_stack_and_pixels_change :
    (∃ t, step (about 0x2300 State.reset) = .next t ∧ t.halted = false ∧ 
      t.stack.sp.val ≠ (about 0x2300 State.reset).stack.sp.val ∧
      t.stack.entry 0 ≠ (about 0x2300 State.reset).stack.entry 0) ∧
    (∃ t, step (about 0xD011 { State.reset with dirty := true }) = .next t ∧ t.halted = false ∧
      FrameBuffer.pixel t.fb 0 0 ≠ FrameBuffer.pixel State.reset.fb 0 0 ∧
      (about 0xD011 { State.reset with dirty := true }).dirty = true) :=
  ⟨⟨_, rfl, rfl, by decide, by decide⟩, ⟨_, rfl, rfl, by decide, rfl⟩⟩

/-- SelfJumpIsAFixedPoint. -/
theorem witness_finished : Finished (about 0x1200 State.reset) := ⟨by decide, 0x200#12, by decide, by decide⟩

/-- TickCountsTimersDown and LatchAndDirtyTransactions: a core that has not halted. -/
theorem witness_not_halted : State.reset.halted = false := rfl

/-- DiagnosticIsAPulse, steps: an UNRECOGNIZED word, a recognized one, an instruction's fault and a fetch fault. -/
theorem witness_diag_steps : State.reset.halted = false ∧
    (∃ t, step (about 0x5121 State.reset) = .next t ∧ t.diag = some ⟨0x5121#16, 0x200#16⟩) ∧
    (∃ t, step (about 0x6001 State.reset) = .next t ∧ t.diag = none) ∧
    (∃ t, step (about 0x00EE State.reset) = .next t ∧ t.diag = none) ∧
    ∃ t, step { State.reset with pc := 0xFFF#16 } = .next t ∧ t.diag = none :=
  ⟨rfl, ⟨_, rfl, rfl⟩, ⟨_, rfl, rfl⟩, ⟨_, rfl, rfl⟩, ⟨_, rfl, rfl⟩⟩

/-- DiagnosticIsAPulse, the other transactions: a tick and an image of one byte, with a diagnostic to silence. -/
theorem witness_diag_transactions : (∀ r, HostOp.tick ≠ .step r) ∧
    (∃ h', Session.apply .tick ⟨{ State.reset with diag := some ⟨1#16, 2#16⟩ }, true⟩ = .next h') ∧
    ∃ h', Session.load [0x12#8] ⟨{ State.reset with diag := some ⟨1#16, 2#16⟩ }, false⟩ = .next h' :=
  ⟨nofun, ⟨_, rfl⟩, ⟨_, rfl⟩⟩

/-- LoadCopiesTheImage: after a step; before one, the longest image that fits, and one byte more. -/
theorem witness_image : Memory.wf Session.powerOn.core.mem ∧ Session.powerOn.core.halted = false ∧
    (⟨State.reset, true⟩ : Session).started = true ∧ Session.powerOn.started = false ∧
    (List.replicate 3584 0x12#8).length ≤ 3584 ∧ 3584 < (List.replicate 3585 0x12#8).length := by
  rw [List.length_replicate, List.length_replicate]
  exact ⟨reset_mem_wf, rfl, rfl, rfl, by decide, by decide⟩

/-- LoadPortWindow: after a step; the last offset; and the first one past it. -/
theorem witness_load_port : Memory.wf Session.powerOn.core.mem ∧ (⟨State.reset, true⟩ : Session).started = true ∧
    Session.powerOn.started = false ∧ (3583#12 : Addr12).toNat < 3584 ∧ 3584 ≤ (3584#12 : Addr12).toNat := by decide

/-- StartedUntilConstruct. -/
theorem witness_started : (∃ h', Session.apply (.step 0) Session.powerOn = .next h') ∧
    ∃ h', Session.apply .construct ⟨State.reset, true⟩ = .next h' := ⟨⟨_, rfl⟩, ⟨_, rfl⟩⟩

/-- FrameBufferPortBits: the last pixel. -/
theorem witness_port_bits : 63 < 64 ∧ 31 < 32 ∧ 64 * 31 + 63 < 2048 := by decide

end Sys2Proof.Machine
end

/-!
PROOFS, family 00_scope.md: what one instruction can do, said once (`exec_cases`), and the frame rule (R14) and the fixed
parameters (R10) derived from it.
-/

namespace Sys2Proof.Machine

/-! ### Memory outside a write

These need no canonical form and no bound, so the frame of a store holds from every state. -/

theorem Cells.get_cons_ne {font : Font} {a a' : Nat} (b : Byte) (m : List Host.Cell) (h : a' ≠ a) :
    Cells.get font (Cells.cons font a b m) a' = Cells.get font m a' := by
  unfold Cells.cons
  split
  · rfl
  · exact if_neg h

theorem Cells.get_set_ne {font : Font} {a a' : Nat} (b : Byte) (m : List Host.Cell) (h : a' ≠ a) :
    Cells.get font (Cells.set font m a b) a' = Cells.get font m a' := by
  induction m with
  | nil => exact Cells.get_cons_ne b [] h
  | cons c m ih =>
    simp only [Cells.set]
    split
    · exact Cells.get_cons_ne b _ h
    · split
      · next hk => rw [Cells.get_cons_ne b m h, Cells.get, if_neg (hk ▸ h)]
      · rw [Cells.get, Cells.get, ih]

theorem Memory.get_setBytes_of_outside (m : Memory) (base : Nat) (bytes : List Byte) (a : Nat)
    (ha : a < base ∨ base + bytes.length ≤ a) : (m.setBytes base bytes).get a = m.get a := by
  induction bytes generalizing m base with
  | nil => rfl
  | cons b bs ih =>
    rw [List.length_cons] at ha
    calc ((m.set base b).setBytes (base + 1) bs).get a
        = (m.set base b).get a := ih _ _ (by omega)
      _ = m.get a := Cells.get_set_ne b m.cells (by omega)

/-! ### Frames of the remaining updates (R14) -/

/-- A frame holds with more registers allowed. -/
theorem Frame.mono_regs {f : Footprint} {s t : State} {rs : List RegNo} (h : Frame f s t) (hsub : f.regs ⊆ rs) :
    Frame { f with regs := rs } s t := by
  obtain ⟨hregs, hrest⟩ := h
  exact ⟨fun r hr => hregs r fun hmem => hr (hsub hmem), hrest⟩

theorem Frame.of_ireg (s : State) (w : Word) : Frame { index := true } s { s with ireg := w } := by
  simp [Frame, SameRecord, State.reg, State.params]

theorem Frame.of_dt (s : State) (b : Byte) : Frame { dt := true } s { s with dt := b } := by
  simp [Frame, SameRecord, State.reg, State.params]

theorem Frame.of_st (s : State) (b : Byte) : Frame { st := true } s { s with st := b } := by
  simp [Frame, SameRecord, State.reg, State.params]

theorem Frame.of_display (s : State) (fb : FrameBuffer) (d : Bool) :
    Frame { display := true } s { s with fb := fb, dirty := d } := by
  simp [Frame, SameRecord, State.reg, State.params]

/-- The call stack may change in everything but its capacity, which is a parameter. -/
theorem Frame.of_stack (s : State) (c : CallStack) (p : Word) (hc : c.capacity = s.stack.capacity) :
    Frame { stack := true } s { s with stack := c, pc := p } := by
  simp [Frame, SameRecord, State.reg, State.params, hc]

theorem Frame.of_setBytes (s : State) (base : Nat) (bytes : List Byte) {n : Nat} (hlen : bytes.length = n) :
    Frame { store := (base, n) } s { s with mem := s.mem.setBytes base bytes } := by
  subst hlen
  have hmem := Memory.get_setBytes_of_outside s.mem base bytes
  simpa [Frame, SameRecord, State.reg, State.params] using hmem

theorem Frame.of_loadRegs (s : State) (bytes : List Byte) (x : RegNo) (hlen : bytes.length = x.toNat + 1) :
    Frame { regs := regsUpToNo x } s (s.loadRegs bytes) := by
  simp only [Frame, SameRecord, State.loadRegs_reg, mem_regsUpToNo]
  refine ⟨fun r hr => ?_, by simp⟩
  rw [List.getElem?_eq_none (by omega), Option.getD_none]

theorem Frame.of_paint (s : State) (rows : List Byte) (ox oy : Nat) :
    Frame { regs := [vF], display := true } s (paint rows ox oy (s.setFlag false)) := by
  refine ⟨fun r hr => ?_, by simp [paint, SameRecord, State.params]⟩
  have hf : r ≠ vF := by simpa using hr
  rw [paint_reg, if_neg hf, State.setFlag_reg, if_neg hf]

theorem Frame.of_rand (s : State) : Frame { draws := true } s (rand s).2 := by
  obtain ⟨b, rest, -, h⟩ | ⟨-, h⟩ := rand_cases s
  · simp [h, Frame, SameRecord, State.reg, State.params]
  · simp [h, Frame, SameRecord, State.reg, State.params]

/-- A register written after other changes joins their frame. -/
theorem Frame.setReg {f : Footprint} {s t : State} (h : Frame f s t) (x : RegNo) (b : Byte) :
    Frame { f with regs := x :: f.regs } s (t.setReg x b) := by
  obtain ⟨hregs, hrest⟩ := h
  refine ⟨fun r hr => ?_, hrest⟩
  obtain ⟨hx, hf⟩ : r ≠ x ∧ r ∉ f.regs := by simpa using hr
  rw [State.setReg_reg_ne _ _ _ _ hx, hregs r hf]

/-! ### What one instruction can do -/

/-- The instruction i completes from s and changes nothing outside its footprint. -/
def Completes (i : Instr) (s : State) : Prop := ∃ t, exec i s = .next t ∧ Frame (footprint i s) s t

/-- The instruction i raises the one fault it can raise (R210, R211). -/
def Raises (i : Instr) (s : State) : Prop :=
  exec i s = .next (raiseFault (faultKindOf i) (s.pc - 2#16) (some (encode i)) s)

/-- FX0A takes a key into V[x], or puts pc back and waits. -/
theorem completes_ldVxK (x : RegNo) (s : State) : Completes (.ldVxK x) s := by
  unfold Completes
  cases h : s.firstKey with
  | some k => exact ⟨s.setReg x k, by simp [exec, execLdVxK, h], Frame.of_setReg s x k⟩
  | none =>
    exact ⟨s.setPc (s.pc - 2#16), by simp [exec, execLdVxK, h],
      (Frame.of_setPc s _).mono_regs (List.nil_subset [x])⟩

/-- FX65 loads V[0] to V[x], or faults (R156, R157). -/
theorem ldVxInd_cases (x : RegNo) (s : State) : Completes (.ldVxInd x) s ∨ Raises (.ldVxInd x) s := by
  unfold Completes Raises
  cases h : readBytes s s.base (x.toNat + 1) with
  | some bytes =>
    have hlen : bytes.length = x.toNat + 1 := by simp [(readBytes_eq_some.1 h).2]
    exact .inl ⟨s.loadRegs bytes, by simp [exec, execLdVxInd, h], Frame.of_loadRegs s bytes x hlen⟩
  | none =>
    right
    simp [exec, execLdVxInd, h, raiseBy, ipc, faultKindOf]

/-- What one instruction can do from any state: complete inside its footprint, or raise its fault. -/
theorem exec_cases (i : Instr) (s : State) : Completes i s ∨ Raises i s := by
  cases i with
  | cls => exact .inl ⟨_, rfl, Frame.of_display s _ _⟩
  | ret =>
    obtain ⟨hsp, h⟩ | ⟨-, h⟩ := popReturn_cases .ret s
    · exact .inl ⟨_, h, Frame.of_stack s _ _ rfl⟩
    · exact .inr h
  | callNnn nnn =>
    obtain ⟨hsp, h⟩ | ⟨-, h⟩ := pushCall_cases (.callNnn nnn) (addrOperand nnn) s
    · exact .inl ⟨_, h, Frame.of_stack s _ _ rfl⟩
    · exact .inr h
  | jpNnn | jpV0Nnn => exact .inl ⟨_, rfl, Frame.of_setPc s _⟩
  | seVxNn | sneVxNn | seVxVy | sneVxVy => exact .inl ⟨_, rfl, Frame.of_skipIf s _⟩
  | ldVxNn | addVxNn | ldVxVy | orVxVy | andVxVy | xorVxVy | ldVxDt =>
    exact .inl ⟨_, rfl, Frame.of_setReg s _ _⟩
  | addVxVy | subVxVy | subnVxVy => exact .inl ⟨_, rfl, Frame.of_setReg_setFlag s _ _ _⟩
  | shrVx | shlVx => exact .inl ⟨_, rfl, Frame.of_shiftReg _ _ _ _ s⟩
  | rndVxNn => exact .inl ⟨_, rfl, (Frame.of_rand s).setReg _ _⟩
  | ldINnn | addIVx | ldFVx => exact .inl ⟨_, rfl, Frame.of_ireg s _⟩
  | ldDtVx => exact .inl ⟨_, rfl, Frame.of_dt s _⟩
  | ldStVx => exact .inl ⟨_, rfl, Frame.of_st s _⟩
  | drwVxVyN x y n =>
    obtain ⟨-, h⟩ | ⟨-, -, h⟩ := drawSprite_cases Config.originBeforeClear (.drwVxVyN x y n) x y n s
    · exact .inl ⟨_, h, Frame.of_paint s _ _ _⟩
    · exact .inr h
  | skpVx x =>
    obtain ⟨-, h⟩ | ⟨-, h⟩ := skipOnKey_cases (.skpVx x) true x s
    · exact .inl ⟨_, h, Frame.of_skipIf s _⟩
    · exact .inr h
  | sknpVx x =>
    obtain ⟨-, h⟩ | ⟨-, h⟩ := skipOnKey_cases (.sknpVx x) false x s
    · exact .inl ⟨_, h, Frame.of_skipIf s _⟩
    · exact .inr h
  | ldVxK x => exact .inl (completes_ldVxK x s)
  | ldBVx x =>
    obtain ⟨-, h⟩ | ⟨-, -, h⟩ := storeAtI_cases (.ldBVx x) (bcdDigits (s.reg x)) s
    · exact .inl ⟨_, h, Frame.of_setBytes s _ _ rfl⟩
    · exact .inr h
  | ldIndVx x =>
    obtain ⟨-, h⟩ | ⟨-, -, h⟩ := storeAtI_cases (.ldIndVx x) (s.regsUpTo x) s
    · exact .inl ⟨_, h, Frame.of_setBytes s _ _ (s.regsUpTo_length x)⟩
    · exact .inr h
  | ldVxInd x => exact ldVxInd_cases x s

/-- What the state after an instruction can be: inside its footprint, or halted by its fault. -/
theorem exec_next_cases {i : Instr} {s t : State} (h : exec i s = .next t) :
    Frame (footprint i s) s t ∨ t = raiseFault (faultKindOf i) (s.pc - 2#16) (some (encode i)) s := by
  obtain ⟨t', ht', hframe⟩ | hraise := exec_cases i s
  · obtain rfl : t = t' := Host.Outcome.next.inj (h.symm.trans ht')
    exact .inl hframe
  · exact .inr (Host.Outcome.next.inj (h.symm.trans hraise))

theorem Frame.params_eq {f : Footprint} {s t : State} (h : Frame f s t) : t.params = s.params := by
  obtain ⟨-, -, -, -, -, -, -, -, -, -, -, hparams⟩ := h
  exact hparams

/-- No instruction changes a parameter, one that faults neither (log 2). -/
theorem exec_params {i : Instr} {s t : State} (h : exec i s = .next t) : t.params = s.params := by
  obtain hframe | rfl := exec_next_cases h
  · exact hframe.params_eq
  · exact raiseFault_params _ _ _ s

/-! ### The random draw (R132) -/

theorem decodeWord_rndVxNn (x : RegNo) (nn : Byte) : decodeWord (0xC#4 ++ x ++ nn) = .ok (.rndVxNn x nn) := by
  simp [decodeWord]

/-- Where the host has supplied draws, the first is the one taken, and it is used up (log 3). -/
theorem rand_of_cons {s : State} {b : Byte} {rest : List Byte} (h : s.randIn = b :: rest) :
    rand s = (b, { s with randIn := rest }) := by
  simp [rand, h]

/-! ### The obligations -/

/-- Settles O40: an instruction that answers a state which is not halted has not raised its fault. -/
theorem everyInstructionStaysInItsFootprint : Obligations.EveryInstructionStaysInItsFootprint := by
  intro i s t _ hexec hrun
  obtain hframe | rfl := exec_next_cases hexec
  · exact hframe
  · simp at hrun

/-- Settles O38: by what a step can do, and what an instruction leaves of the parameters. -/
theorem stepKeepsTheParameters : Obligations.StepKeepsTheParameters := by
  intro s t hstep
  obtain ⟨-, h⟩ | ⟨-, -, h⟩ | ⟨w, i, -, -, -, h⟩ | ⟨w, e, -, -, -, h⟩ := step_cases s
  · simp [h] at hstep
  · obtain rfl := Host.Outcome.next.inj (h.symm.trans hstep)
    simp
  · simpa using exec_params (h.symm.trans hstep)
  · obtain rfl := Host.Outcome.next.inj (h.symm.trans hstep)
    rfl

/-- Settles O19: the byte is the draw of `rand`. -/
theorem randomIsADrawMasked : Obligations.RandomIsADrawMasked := by
  intro x nn s
  refine ⟨decodeWord_rndVxNn x nn, (rand s).2.setReg x ((rand s).1 &&& nn), (rand s).1, rfl, by simp, ?_, ?_,
    (Frame.of_rand s).setReg x _⟩
  · intro b rest h
    simp [rand_of_cons h]
  · obtain ⟨b, rest, -, h⟩ | ⟨-, h⟩ := rand_cases s
    · simp [h]
    · simp [h]

end Sys2Proof.Machine

/-!
PROOFS, family 10_state.md: the invariant (R20, R24, R27, R33, D8) under every step, which instruction each part of the
state changes in (section 12), and the latch and dirty transactions (R31, R32).
-/

namespace Sys2Proof.Machine

/-! ### Live stack entries (R27, D8) -/

/-- Every live entry of the call stack is at most 0x1000, the form in which `Inv.stack` states it. -/
def CallStack.Bounded (c : CallStack) : Prop := ∀ k w, k < c.sp.val → c.entry k = some w → w.toNat ≤ 0x1000

theorem CallStack.Bounded.push {c : CallStack} (hc : c.Bounded) {w : Word} (hw : w.toNat ≤ 0x1000)
    (h : c.sp.val < c.capacity) : (c.push w h).Bounded := by
  intro k u hk hu
  rw [CallStack.push_sp] at hk
  rw [CallStack.push_entry] at hu
  split at hu
  · obtain rfl := Option.some.inj hu
    exact hw
  · exact hc k u (by omega) hu

theorem CallStack.Bounded.pop {c : CallStack} (hc : c.Bounded) : c.pop.Bounded := by
  intro k w hk hw
  rw [CallStack.pop_sp] at hk
  exact hc k w (by omega) hw

theorem CallStack.Bounded.top_le {c : CallStack} (hc : c.Bounded) (h : 0 < c.sp.val) : (c.top h).toNat ≤ 0x1000 :=
  hc (c.sp.val - 1) (c.top h) (by omega) (c.top_eq h).symm

/-! ### Targets of pc (R24) -/

theorem addrOperand_toNat_lt (nnn : Addr12) : (addrOperand nnn).toNat < 0x1000 := by
  have := nnn.isLt
  simp only [addrOperand, BitVec.truncate_eq_setWidth, BitVec.toNat_setWidth]
  omega

/-- BNNN's target is at most 0xFF + 0xFFF, where the bound on pc comes from (R24, R108). -/
theorem addrOperand_add_byte_le (b : Byte) (nnn : Addr12) :
    ((b.zeroExtend 16 : Word) + addrOperand nnn).toNat ≤ 0x10FE := by
  have hb := b.isLt
  have hn := addrOperand_toNat_lt nnn
  simp only [BitVec.toNat_add, BitVec.truncate_eq_setWidth, BitVec.toNat_setWidth]
  omega

/-! ### The fault record (R33, R211) -/

theorem RecordCoherent.congr {s t : State} (h : RecordCoherent s) (hsame : SameRecord s t) : RecordCoherent t := by
  obtain ⟨hhalted, hkind, hpc, hopcode, hvalid⟩ := hsame
  simpa only [RecordCoherent, hhalted, hkind, hpc, hopcode, hvalid] using h

/-- A fault of an instruction leaves a coherent record where its address could be fetched from. -/
theorem recordCoherent_raiseFault {k : FaultKind} (hnone : k ≠ .none) (hfetch : k ≠ .fetchOutOfRange) {p : Word}
    (hp : p.toNat ≤ 0xFFE) (w : Word) (s : State) : RecordCoherent (raiseFault k p (some w) s) := by
  cases k with
  | none => exact absurd rfl hnone
  | fetchOutOfRange => exact absurd rfl hfetch
  | memOutOfRange | stackOverflow | stackUnderflow | keyIndexOutOfRange => exact ⟨rfl, hp, rfl⟩

theorem recordCoherent_fetchFault {p : Word} (hp : 0xFFE < p.toNat) (s : State) :
    RecordCoherent (raiseFault .fetchOutOfRange p none s) := ⟨rfl, hp, rfl, rfl⟩

/-- Fault entry meets the invariant wherever its record does: the bounds on pc and the stack end with it (R213). -/
theorem Inv.of_raiseFault {k : FaultKind} {p : Word} {o : Option Word} {s : State}
    (h : RecordCoherent (raiseFault k p o s)) : Inv (raiseFault k p o s) where
  memory := raiseFault_wf k p o s
  record := h
  pc := by simp
  stack := by simp

/-! ### The invariant while an instruction executes (R84) -/

/-- The states Execute runs on: a running state that meets the invariant, its pc advanced past the fetched word, which
lay at or below 0xFFE. -/
structure Executing (s : State) : Prop where
  inv     : Inv s
  running : s.halted = false
  pc_low  : 2 ≤ s.pc.toNat
  pc_high : s.pc.toNat ≤ 0x1000

theorem Inv.executing {s : State} (hs : Inv s) (hrun : s.halted = false) {w : Word} (hw : fetchWord s = some w) :
    Executing (advance (quiet s)) := by
  obtain ⟨hfetch, -⟩ := fetchWord_eq_some.1 hw
  have hpc : (advance (quiet s)).pc.toNat = s.pc.toNat + 2 := by
    rw [advance_pc, quiet_pc]
    bv_omega
  exact ⟨⟨hs.memory, hs.record, fun _ => by omega, hs.stack⟩, hrun, by omega, by omega⟩

namespace Executing

variable {s t : State}

theorem bounded (hs : Executing s) : s.stack.Bounded := hs.inv.stack hs.running

/-- What a completing instruction owes the invariant: the record as it was, and its own part for the rest. -/
theorem inv_of_sameRecord (hs : Executing s) (hrec : SameRecord s t) (hmem : Memory.wf t.mem)
    (hpc : t.pc.toNat ≤ 0x10FE) (hstack : t.stack.Bounded) : Inv t :=
  ⟨hmem, hs.inv.record.congr hrec, fun _ => hpc, fun _ => hstack⟩

/-- Registers, I, the timers, the display and the draws do not matter to the invariant. -/
theorem inv_of_data (hs : Executing s) (hrec : SameRecord s t) (hmem : t.mem = s.mem) (hpc : t.pc = s.pc)
    (hstack : t.stack = s.stack) : Inv t :=
  hs.inv_of_sameRecord hrec (hmem ▸ hs.inv.memory) (hpc ▸ hs.inv.pc hs.running) (hstack ▸ hs.bounded)

theorem inv_setPc (hs : Executing s) {p : Word} (hp : p.toNat ≤ 0x10FE) : Inv (s.setPc p) :=
  hs.inv_of_sameRecord ⟨rfl, rfl, rfl, rfl, rfl⟩ hs.inv.memory hp hs.bounded

theorem inv_skipIf (hs : Executing s) (cond : Bool) : Inv (s.skipIf cond) := by
  have := hs.pc_high
  cases cond with
  | false => exact hs.inv
  | true => exact hs.inv_setPc (by bv_omega)

theorem inv_raise (hs : Executing s) {k : FaultKind} (hnone : k ≠ .none) (hfetch : k ≠ .fetchOutOfRange) (w : Word) :
    Inv (raiseFault k (s.pc - 2#16) (some w) s) := by
  have hlow := hs.pc_low
  have hhigh := hs.pc_high
  exact .of_raiseFault (recordCoherent_raiseFault hnone hfetch (by bv_omega) w s)

theorem inv_setBytes (hs : Executing s) {base : Nat} {bytes : List Byte}
    (hr : bytes.length = 0 ∨ base + bytes.length ≤ 4096) : Inv { s with mem := s.mem.setBytes base bytes } := by
  refine hs.inv_of_sameRecord ⟨rfl, rfl, rfl, rfl, rfl⟩ ?_ (hs.inv.pc hs.running) hs.bounded
  obtain h0 | hr := hr
  · rw [List.length_eq_zero_iff.1 h0]
    exact hs.inv.memory
  · exact Memory.wf_setBytes hs.inv.memory bytes hr

/-! The shared operations that can fault, each by its two cases. -/

theorem pushCall_inv (hs : Executing s) (i : Instr) (nnn : Addr12) :
    ∃ t, pushCall i (addrOperand nnn) s = .next t ∧ Inv t := by
  have hn := addrOperand_toNat_lt nnn
  obtain ⟨hsp, h⟩ | ⟨-, h⟩ := pushCall_cases i (addrOperand nnn) s
  · exact ⟨_, h, hs.inv_of_sameRecord ⟨rfl, rfl, rfl, rfl, rfl⟩ hs.inv.memory (by dsimp only; omega)
      (hs.bounded.push hs.pc_high hsp)⟩
  · exact ⟨_, h, hs.inv_raise (by decide) (by decide) _⟩

theorem popReturn_inv (hs : Executing s) (i : Instr) : ∃ t, popReturn i s = .next t ∧ Inv t := by
  obtain ⟨hsp, h⟩ | ⟨-, h⟩ := popReturn_cases i s
  · have htop := hs.bounded.top_le hsp
    exact ⟨_, h, hs.inv_of_sameRecord ⟨rfl, rfl, rfl, rfl, rfl⟩ hs.inv.memory (by dsimp only; omega) hs.bounded.pop⟩
  · exact ⟨_, h, hs.inv_raise (by decide) (by decide) _⟩

theorem storeAtI_inv (hs : Executing s) (i : Instr) (bytes : List Byte) :
    ∃ t, storeAtI i bytes s = .next t ∧ Inv t := by
  obtain ⟨hr, h⟩ | ⟨-, -, h⟩ := storeAtI_cases i bytes s
  · exact ⟨_, h, hs.inv_setBytes hr⟩
  · exact ⟨_, h, hs.inv_raise (by decide) (by decide) _⟩

theorem skipOnKey_inv (hs : Executing s) (i : Instr) (pressed : Bool) (x : RegNo) :
    ∃ t, skipOnKey i pressed x s = .next t ∧ Inv t := by
  obtain ⟨-, h⟩ | ⟨-, h⟩ := skipOnKey_cases i pressed x s
  · exact ⟨_, h, hs.inv_skipIf _⟩
  · exact ⟨_, h, hs.inv_raise (by decide) (by decide) _⟩

theorem drawSprite_inv (hs : Executing s) (originFirst : Bool) (i : Instr) (x y : RegNo) (n : Nibble) :
    ∃ t, drawSprite originFirst i x y n s = .next t ∧ Inv t := by
  obtain ⟨-, h⟩ | ⟨-, -, h⟩ := drawSprite_cases originFirst i x y n s
  · exact ⟨_, h, hs.inv_of_data ⟨rfl, rfl, rfl, rfl, rfl⟩ rfl rfl rfl⟩
  · exact ⟨_, h, hs.inv_raise (by decide) (by decide) _⟩

theorem ldVxInd_inv (hs : Executing s) (x : RegNo) : ∃ t, execLdVxInd x s = .next t ∧ Inv t := by
  cases h : readBytes s s.base (x.toNat + 1) with
  | some bytes =>
    exact ⟨s.loadRegs bytes, by simp [execLdVxInd, h],
      hs.inv_of_data (by simp [SameRecord]) (by simp) (by simp) (by simp)⟩
  | none =>
    exact ⟨raiseFault .memOutOfRange (s.pc - 2#16) (some (encode (.ldVxInd x))) s,
      by simp [execLdVxInd, h, raiseBy, ipc], hs.inv_raise (by decide) (by decide) _⟩

/-- FX0A's pc goes back to the instruction while it waits (R194). -/
theorem ldVxK_inv (hs : Executing s) (x : RegNo) : ∃ t, execLdVxK x s = .next t ∧ Inv t := by
  unfold execLdVxK
  cases s.firstKey with
  | some k => exact ⟨_, rfl, hs.inv_of_data ⟨rfl, rfl, rfl, rfl, rfl⟩ rfl rfl rfl⟩
  | none =>
    have hlow := hs.pc_low
    have hhigh := hs.pc_high
    exact ⟨_, rfl, hs.inv_setPc (by bv_omega)⟩

theorem rndVxNn_inv (hs : Executing s) (x : RegNo) (nn : Byte) : Inv ((rand s).2.setReg x ((rand s).1 &&& nn)) := by
  obtain ⟨b, rest, -, h⟩ | ⟨-, h⟩ := rand_cases s
  · rw [h]
    exact hs.inv_of_data ⟨rfl, rfl, rfl, rfl, rfl⟩ rfl rfl rfl
  · rw [h]
    exact hs.inv_of_data ⟨rfl, rfl, rfl, rfl, rfl⟩ rfl rfl rfl

/-- Every instruction, completing or faulting, leads from an executing state to one that meets the invariant. -/
theorem exec_inv (hs : Executing s) (i : Instr) : ∃ t, exec i s = .next t ∧ Inv t := by
  cases i with
  | cls | ldVxNn | addVxNn | ldVxVy | orVxVy | andVxVy | xorVxVy | addVxVy | subVxVy | subnVxVy | shrVx | shlVx
  | ldINnn | addIVx | ldFVx | ldVxDt | ldDtVx | ldStVx =>
    exact ⟨_, rfl, hs.inv_of_data ⟨rfl, rfl, rfl, rfl, rfl⟩ rfl rfl rfl⟩
  | seVxNn | sneVxNn | seVxVy | sneVxVy => exact ⟨_, rfl, hs.inv_skipIf _⟩
  | jpNnn nnn =>
    have := addrOperand_toNat_lt nnn
    exact ⟨_, rfl, hs.inv_setPc (by omega)⟩
  | jpV0Nnn nnn => exact ⟨_, rfl, hs.inv_setPc (addrOperand_add_byte_le _ nnn)⟩
  | ret => exact hs.popReturn_inv .ret
  | callNnn nnn => exact hs.pushCall_inv (.callNnn nnn) nnn
  | rndVxNn x nn => exact ⟨_, rfl, hs.rndVxNn_inv x nn⟩
  | drwVxVyN x y n => exact hs.drawSprite_inv _ (.drwVxVyN x y n) x y n
  | skpVx x => exact hs.skipOnKey_inv (.skpVx x) true x
  | sknpVx x => exact hs.skipOnKey_inv (.sknpVx x) false x
  | ldVxK x => exact hs.ldVxK_inv x
  | ldBVx x => exact hs.storeAtI_inv (.ldBVx x) _
  | ldIndVx x => exact hs.storeAtI_inv (.ldIndVx x) _
  | ldVxInd x => exact hs.ldVxInd_inv x

end Executing

/-! ### Which instruction changes what (section 12)

The footprint names each part of the state in the instructions that may write it. -/

theorem footprint_index {i : Instr} {s : State} (h : (footprint i s).index = true) :
    (∃ nnn, i = .ldINnn nnn) ∨ (∃ x, i = .addIVx x) ∨ ∃ x, i = .ldFVx x := by
  cases i <;> simp_all [footprint]

theorem footprint_dt {i : Instr} {s : State} (h : (footprint i s).dt = true) : ∃ x, i = .ldDtVx x := by
  cases i <;> simp_all [footprint]

theorem footprint_st {i : Instr} {s : State} (h : (footprint i s).st = true) : ∃ x, i = .ldStVx x := by
  cases i <;> simp_all [footprint]

theorem footprint_stack {i : Instr} {s : State} (h : (footprint i s).stack = true) :
    i = .ret ∨ ∃ nnn, i = .callNnn nnn := by
  cases i <;> simp_all [footprint]

theorem footprint_display {i : Instr} {s : State} (h : (footprint i s).display = true) :
    i = .cls ∨ ∃ x y n, i = .drwVxVyN x y n := by
  cases i <;> simp_all [footprint]

/-- A return that does not fault leaves every entry of the stack as it was, the popped one too (R101). -/
theorem exec_ret_entry {s t : State} (h : exec .ret s = .next t) (hrun : t.halted = false) (k : Nat) :
    t.stack.entry k = s.stack.entry k := by
  obtain ⟨hsp, hpop⟩ | ⟨-, hraise⟩ := popReturn_cases .ret s
  · obtain rfl := Host.Outcome.next.inj (hpop.symm.trans h)
    rfl
  · obtain rfl := Host.Outcome.next.inj (hraise.symm.trans h)
    simp at hrun

/-- CLS and DRW set dirty when they do not fault (R31, R171, R172). -/
theorem exec_display_dirty {i : Instr} {s t : State} (h : exec i s = .next t) (hrun : t.halted = false)
    (hdisplay : (footprint i s).display = true) : t.dirty = true := by
  obtain rfl | ⟨x, y, n, rfl⟩ := footprint_display hdisplay
  · obtain rfl := Host.Outcome.next.inj h
    rfl
  · obtain ⟨-, hpaint⟩ | ⟨-, -, hraise⟩ := drawSprite_cases Config.originBeforeClear (.drwVxVyN x y n) x y n s
    · obtain rfl := Host.Outcome.next.inj (hpaint.symm.trans h)
      rfl
    · obtain rfl := Host.Outcome.next.inj (hraise.symm.trans h)
      simp at hrun

/-- What a step that does not fault can do: run an instruction inside its footprint, or report an UNRECOGNIZED word. -/
theorem step_running_cases {s t : State} (h : step s = .next t) (hrun : t.halted = false) :
    (∃ i, nextInstr s = some i ∧ exec i (advance (quiet s)) = .next t ∧
      Frame (footprint i (advance (quiet s))) (advance (quiet s)) t) ∨
    ∃ d, t = { advance (quiet s) with diag := d } := by
  obtain ⟨-, hstep⟩ | ⟨-, -, hstep⟩ | ⟨w, i, -, hw, hd, hstep⟩ | ⟨w, e, -, -, -, hstep⟩ := step_cases s
  · simp [hstep] at h
  · obtain rfl := Host.Outcome.next.inj (hstep.symm.trans h)
    simp at hrun
  · have hexec := hstep.symm.trans h
    obtain hframe | rfl := exec_next_cases hexec
    · exact .inl ⟨i, by simp [nextInstr, hw, hd], hexec, hframe⟩
    · simp at hrun
  · exact .inr ⟨_, (Host.Outcome.next.inj (hstep.symm.trans h)).symm⟩

/-! ### The obligations -/

/-- Settles O37: a fetch fault leaves a coherent record, and the rest starts from an executing state. -/
theorem stepKeepsTheInvariant : Obligations.StepKeepsTheInvariant := by
  intro s t hs hstep
  obtain ⟨-, h⟩ | ⟨-, hfetch, h⟩ | ⟨w, i, hrun, hw, -, h⟩ | ⟨w, e, hrun, hw, -, h⟩ := step_cases s
  · simp [h] at hstep
  · obtain rfl := Host.Outcome.next.inj (h.symm.trans hstep)
    exact .of_raiseFault (recordCoherent_fetchFault (by have := fetchWord_eq_none.1 hfetch; omega) _)
  · obtain ⟨t', hexec, hinv⟩ := (hs.executing hrun hw).exec_inv i
    obtain rfl := Host.Outcome.next.inj (hexec.symm.trans (h.symm.trans hstep))
    exact hinv
  · obtain rfl := Host.Outcome.next.inj (h.symm.trans hstep)
    exact (hs.executing hrun hw).inv_of_data ⟨rfl, rfl, rfl, rfl, rfl⟩ rfl rfl rfl

/-- Settles O43: what changed is in the footprint, and the footprint names the instruction; for the entries RET's pop is
looked at besides. -/
theorem stateChangesOnlyByItsInstructions : Obligations.StateChangesOnlyByItsInstructions := by
  intro s t _ hstep hrun
  obtain ⟨i, hi, hexec, hframe⟩ | ⟨d, rfl⟩ := step_running_cases hstep hrun
  · obtain ⟨-, hindex, hstack, hdt, hst, hdisplay, -, -, hkeys, -⟩ := hframe
    have hwriter (h : t.stack ≠ s.stack) : i = .ret ∨ ∃ nnn, i = .callNnn nnn :=
      footprint_stack (Bool.eq_true_of_not_eq_false (mt hstack h))
    rw [hi]
    refine ⟨fun h => ⟨i, rfl, ?index⟩, fun h => ?dt, fun h => ?st, fun h => ?sp, fun ⟨k, h⟩ => ?entry, fun h => ?fb,
      fun h => ?dirty, hkeys⟩
    case index => exact footprint_index (Bool.eq_true_of_not_eq_false (mt hindex h))
    case dt =>
      obtain ⟨x, rfl⟩ := footprint_dt (Bool.eq_true_of_not_eq_false (mt hdt h))
      exact ⟨x, rfl⟩
    case st =>
      obtain ⟨x, rfl⟩ := footprint_st (Bool.eq_true_of_not_eq_false (mt hst h))
      exact ⟨x, rfl⟩
    case sp =>
      obtain rfl | ⟨nnn, rfl⟩ := hwriter fun heq => h (by rw [heq])
      · exact .inl rfl
      · exact .inr ⟨nnn, rfl⟩
    case entry =>
      obtain rfl | ⟨nnn, rfl⟩ := hwriter fun heq => h (by rw [heq])
      · exact absurd (exec_ret_entry hexec hrun k) h
      · exact ⟨nnn, rfl⟩
    case fb =>
      obtain rfl | ⟨x, y, n, rfl⟩ := footprint_display (Bool.eq_true_of_not_eq_false fun hno => h (hdisplay hno).1)
      · exact .inl rfl
      · exact .inr ⟨x, y, n, rfl⟩
    case dirty =>
      cases hd : (footprint i (advance (quiet s))).display with
      | true => exact exec_display_dirty hexec hrun hd
      | false => exact (hdisplay hd).2.trans h
  · exact ⟨fun h => absurd rfl h, fun h => absurd rfl h, fun h => absurd rfl h, fun h => absurd rfl h,
      fun ⟨_, h⟩ => absurd rfl h, fun h => absurd rfl h, id, rfl⟩

/-- Settles O46: both transactions are one update beside the silenced port. -/
theorem latchAndDirtyTransactions : Obligations.LatchAndDirtyTransactions := by
  intro keysIn s
  have hkey (k : BitVec 4) : (setKeys keysIn s).key k = keysIn.getLsbD k.toNat := by
    simp only [State.key, setKeys, Vector.getElem_ofFn]
  exact ⟨fun _ => ⟨hkey, rfl⟩, rfl, rfl⟩

end Sys2Proof.Machine

/-!
PROOFS, family 20_memory.md: memory is written by LD B, VX and LD [I], VX alone, inside the bytes they store (R58, R59).
-/

namespace Sys2Proof.Machine

@[simp] theorem quiet_ireg (s : State) : (quiet s).ireg = s.ireg := rfl
@[simp] theorem advance_ireg (s : State) : (advance s).ireg = s.ireg := rfl

/-- An address inside the bytes an instruction may store names one of the two stores and its range from I. -/
theorem footprint_store {i : Instr} {s : State} {a : Nat} (hlow : (footprint i s).store.1 ≤ a)
    (hhigh : a < (footprint i s).store.1 + (footprint i s).store.2) :
    ∃ x, (i = .ldBVx x ∧ s.ireg.toNat ≤ a ∧ a ≤ s.ireg.toNat + 2) ∨
      (i = .ldIndVx x ∧ s.ireg.toNat ≤ a ∧ a ≤ s.ireg.toNat + x.toNat) := by
  cases i with
  | ldBVx x => exact ⟨x, .inl ⟨rfl, hlow, Nat.le_of_lt_succ hhigh⟩⟩
  | ldIndVx x => exact ⟨x, .inr ⟨rfl, hlow, Nat.le_of_lt_succ hhigh⟩⟩
  | _ => exact absurd hhigh (Nat.not_lt_zero a)

/-- A byte that differs lies inside the bytes the frame lets be stored. -/
theorem Frame.store_of_get_ne {f : Footprint} {s t : State} (h : Frame f s t) {a : Nat}
    (hne : t.mem.get a ≠ s.mem.get a) : f.store.1 ≤ a ∧ a < f.store.1 + f.store.2 := by
  obtain ⟨-, -, -, -, -, -, -, hmem, -⟩ := h
  have hinside := mt (hmem a) hne
  omega

/-- Settles O42: a changed byte is inside the store of the footprint of the instruction that ran, and fetch and advance leave
the I that its range starts from. -/
theorem memoryChangesOnlyByStores : Obligations.MemoryChangesOnlyByStores := by
  intro s t a _ _ hstep hrun hne
  obtain ⟨i, hi, -, hframe⟩ | ⟨d, rfl⟩ := step_running_cases hstep hrun
  · obtain ⟨hlow, hhigh⟩ := hframe.store_of_get_ne hne
    simpa only [hi, Option.some.injEq, advance_ireg, quiet_ireg] using footprint_store hlow hhigh
  · exact absurd rfl hne

end Sys2Proof.Machine

/-!
PROOFS, family 30_encoding.md: decoder and encoder are inverse (R82, R85, R90), a step runs the instruction it
decodes (R84), and a step that halts has the fetch fault or the one fault of its instruction (R210, R211, R215).
-/

namespace Sys2Proof

/-! ### The decoder on a word put together of fields (R82, R85) -/

theorem decodeWord_family8 (x y : RegNo) (n : Nibble) : decodeWord (0x8#4 ++ x ++ y ++ n) = decode8 n x y := by
  simp [decodeWord]

theorem decodeWord_familyE (x : RegNo) (nn : Byte) : decodeWord (0xE#4 ++ x ++ nn) = decodeE nn x := by
  simp [decodeWord]

theorem decodeWord_familyF (x : RegNo) (nn : Byte) : decodeWord (0xF#4 ++ x ++ nn) = decodeF nn x := by
  simp [decodeWord]

/-- The decoder gives back what the encoder wrote: the top nibble alone names the instruction, or its family's selector
does. -/
theorem decodeWord_encode (i : Instr) : decodeWord (encode i) = .ok i := by
  cases i with
  | cls | ret => rfl
  | jpNnn | callNnn | ldINnn | jpV0Nnn | seVxNn | sneVxNn | ldVxNn | addVxNn | rndVxNn | seVxVy | sneVxVy | drwVxVyN =>
    simp [encode, decodeWord]
  | ldVxVy x y | orVxVy x y | andVxVy x y | xorVxVy x y | addVxVy x y | subVxVy x y | shrVx x y | subnVxVy x y
  | shlVx x y => exact decodeWord_family8 x y _
  | skpVx x | sknpVx x => exact decodeWord_familyE x _
  | ldVxDt x | ldVxK x | ldDtVx x | ldStVx x | addIVx x | ldFVx x | ldBVx x | ldIndVx x | ldVxInd x =>
    exact decodeWord_familyF x _

/-- Decoding at the head of a byte sequence is decoding the word of its two bytes (R81). -/
theorem decode_encodeBytes_append (i : Instr) (rest : List Byte) : decode (encodeBytes i ++ rest) = .ok (i, rest) := by
  simp [encodeBytes, decode, wordOfBytes_extract, decodeWord_encode]

/-! ### The encoder on what was decoded -/

theorem encode_of_decode8 {n : Nibble} {x y : RegNo} {i : Instr} (h : decode8 n x y = .ok i) :
    encode i = 0x8#4 ++ x ++ y ++ n := by
  unfold decode8 at h
  split at h <;> cases h <;> rfl

theorem encode_of_decodeE {nn : Byte} {x : RegNo} {i : Instr} (h : decodeE nn x = .ok i) :
    encode i = 0xE#4 ++ x ++ nn := by
  unfold decodeE at h
  split at h <;> cases h <;> rfl

theorem encode_of_decodeF {nn : Byte} {x : RegNo} {i : Instr} (h : decodeF nn x = .ok i) :
    encode i = 0xF#4 ++ x ++ nn := by
  unfold decodeF at h
  split at h <;> cases h <;> rfl

/-- A word that decodes is put together again, by its top nibble, from the fields the decoder read. Case `h_k` is the
k-th row of the decoder, top nibble k - 1. -/
theorem encode_of_decodeWord {w : Word} {i : Instr} (h : decodeWord w = .ok i) : encode i = w := by
  have hnnn := word_nnn w
  have hxnn := word_xnn w
  have hxyn := word_xyn w
  unfold decodeWord at h
  generalize fieldF w = f at h hnnn hxnn hxyn
  split at h
  case h_1 =>
    split at h
    · next hw => cases h; exact hw.symm
    · split at h
      · next hw => cases h; exact hw.symm
      · cases h
  case h_2 | h_3 | h_11 | h_12 => cases h; exact hnnn
  case h_4 | h_5 | h_7 | h_8 | h_13 => cases h; exact hxnn
  case h_6 | h_10 =>
    split at h
    · next hn => cases h; rw [hn] at hxyn; exact hxyn
    · cases h
  case h_9 => exact (encode_of_decode8 h).trans hxyn
  case h_14 => cases h; exact hxyn
  case h_15 => exact (encode_of_decodeE h).trans hxnn
  case h_16 =>
    have hf : f = 0xF#4 := by
      simp only [imp_false] at *
      bv_omega
    exact (encode_of_decodeF h).trans (hf ▸ hxnn)

/-- Settles O1: the word by the shape of each instruction, and the bytes by the word. -/
theorem decodeOfEncodeIsTheInstruction : Obligations.DecodeOfEncodeIsTheInstruction :=
  fun i rest => ⟨decodeWord_encode i, decode_encodeBytes_append i rest⟩

/-- Settles O2: the fields the decoder read, below the top nibble it matched, are the whole word. -/
theorem encodeOfDecodeIsTheWord : Obligations.EncodeOfDecodeIsTheWord := fun _ _ => encode_of_decodeWord

end Sys2Proof

namespace Sys2Proof.Machine

/-! ### The step (R84) -/

theorem step_of_decodeWord {s : State} {w : Word} {i : Instr} (hrun : s.halted = false) (hw : fetchWord s = some w)
    (hd : decodeWord w = .ok i) : step s = exec i (advance (quiet s)) := by
  simp [step, hrun, hw, hd]

/-- Settles O5: in range the fetch gives the two bytes at pc as one word. -/
theorem stepRunsTheDecodedInstruction : Obligations.StepRunsTheDecodedInstruction :=
  fun _ _ hrun hpc hd => step_of_decodeWord hrun (fetchWord_eq_some.2 ⟨hpc, rfl⟩) hd

/-! ### The fault of a step (R210, R215) -/

theorem Frame.halted_eq {f : Footprint} {s t : State} (h : Frame f s t) : t.halted = s.halted := by
  obtain ⟨-, -, -, -, -, -, -, -, -, ⟨hhalted, -⟩, -⟩ := h
  exact hhalted

/-- An instruction with no fault kind does not halt the core. -/
theorem exec_halted_of_faultKindOf_none {i : Instr} {s t : State} (hkind : faultKindOf i = .none)
    (h : exec i s = .next t) : t.halted = s.halted := by
  cases i with
  | ret | callNnn | drwVxVyN | skpVx | sknpVx | ldBVx | ldIndVx | ldVxInd => cases hkind
  | seVxNn | sneVxNn | seVxVy | sneVxVy =>
    obtain rfl := Host.Outcome.next.inj h
    exact State.skipIf_halted s _
  | rndVxNn =>
    obtain rfl := Host.Outcome.next.inj h
    exact (Frame.of_rand s).halted_eq
  | ldVxK x =>
    obtain ⟨t', ht', hframe⟩ := completes_ldVxK x s
    obtain rfl := Host.Outcome.next.inj (h.symm.trans ht')
    exact hframe.halted_eq
  | _ =>
    obtain rfl := Host.Outcome.next.inj h
    rfl

/-- An instruction that halts a running core has a fault kind, and has raised it. -/
theorem exec_halts_cases {i : Instr} {s t : State} (hrun : s.halted = false) (h : exec i s = .next t)
    (hhalt : t.halted = true) :
    faultKindOf i ≠ .none ∧ t = raiseFault (faultKindOf i) (s.pc - 2#16) (some (encode i)) s := by
  have hchange : t.halted ≠ s.halted := by simp [hrun, hhalt]
  refine ⟨fun hkind => hchange (exec_halted_of_faultKindOf_none hkind h), ?_⟩
  obtain hframe | hraise := exec_next_cases h
  · exact absurd hframe.halted_eq hchange
  · exact hraise

/-- Settles O33: the fetch fault, or the instruction's, whose recorded encoding is the fetched word. -/
theorem stepHaltsWithTheFaultOfItsInstruction : Obligations.StepHaltsWithTheFaultOfItsInstruction := by
  intro s t hrun hstep hhalt
  obtain ⟨h, -⟩ | ⟨-, hfetch, h⟩ | ⟨w, i, -, hw, hd, h⟩ | ⟨w, e, -, -, -, h⟩ := step_cases s
  · simp [hrun] at h
  · obtain rfl := Host.Outcome.next.inj (h.symm.trans hstep)
    have hpc := fetchWord_eq_none.1 hfetch
    exact .inl ⟨by omega, rfl, rfl, rfl, rfl, rfl⟩
  · obtain ⟨hkind, rfl⟩ := exec_halts_cases (s := advance (quiet s)) hrun (h.symm.trans hstep) hhalt
    obtain ⟨hpc, -⟩ := fetchWord_eq_some.1 hw
    have hipc : (advance (quiet s)).pc - 2#16 = s.pc := BitVec.add_sub_cancel s.pc 2#16
    exact .inr ⟨by omega, w, i, hw, hd, hkind, rfl, rfl, hipc, encode_of_decodeWord hd, rfl⟩
  · obtain rfl := Host.Outcome.next.inj (h.symm.trans hstep)
    cases hrun.symm.trans hhalt

end Sys2Proof.Machine

/-!
PROOFS, family 41_control_flow.md: the register skips (R104 to R107), the jumps (R102, R108), CALL and RET (R101, R103)
and their composition, and the program finished at a jump to its own address (R229).
-/

namespace Sys2Proof

/-! ### Families 5 and 9 take the selector nibble 0 alone (R86, R106, R107) -/

theorem decodeWord_family5 (x y : RegNo) (n : Nibble) :
    decodeWord (0x5#4 ++ x ++ y ++ n) = if n = 0#4 then .ok (.seVxVy x y) else .error .family5 := by
  simp [decodeWord]

theorem decodeWord_family9 (x y : RegNo) (n : Nibble) :
    decodeWord (0x9#4 ++ x ++ y ++ n) = if n = 0#4 then .ok (.sneVxVy x y) else .error .family9 := by
  simp [decodeWord]

end Sys2Proof

namespace Sys2Proof.Machine

/-! ### Where a skip or a jump leads (R100, R102, R108) -/

theorem State.skipIf_beq_pc (s : State) (a b : Byte) :
    (s.skipIf (a == b)).pc = if a = b then s.pc + 2#16 else s.pc := by
  simp

theorem State.skipIf_bne_pc (s : State) (a b : Byte) :
    (s.skipIf (a != b)).pc = if a = b then s.pc else s.pc + 2#16 := by
  simp

@[simp] theorem addrOperand_toNat (nnn : Addr12) : (addrOperand nnn).toNat = nnn.toNat :=
  BitVec.toNat_setWidth_of_le (by decide)

/-- BNNN's sum does not wrap: it is at most 0xFF + 0xFFF (R108). -/
theorem toNat_byte_add_addrOperand (b : Byte) (nnn : Addr12) :
    ((b.zeroExtend 16 : Word) + addrOperand nnn).toNat = b.toNat + nnn.toNat := by
  have hzext : (b.zeroExtend 16 : Word).toNat = b.toNat := BitVec.toNat_setWidth_of_le (by decide)
  have hb := b.isLt
  have hn := nnn.isLt
  rw [BitVec.toNat_add, hzext, addrOperand_toNat]
  omega

/-! ### CALL and RET, each in its two cases (R101, R103) -/

theorem exec_callNnn_of_lt {nnn : Addr12} {s : State} (h : s.stack.sp.val < s.stack.capacity) :
    exec (.callNnn nnn) s = .next { s with stack := s.stack.push s.pc h, pc := addrOperand nnn } := dif_pos h

theorem raises_callNnn {nnn : Addr12} {s : State} (h : s.stack.sp.val = s.stack.capacity) : Raises (.callNnn nnn) s :=
  dif_neg (by omega)

theorem exec_ret_of_pos {s : State} (h : 0 < s.stack.sp.val) :
    exec .ret s = .next { s with stack := s.stack.pop, pc := s.stack.top h } := dif_pos h

theorem raises_ret {s : State} (h : s.stack.sp.val = 0) : Raises .ret s := dif_neg (by omega)

/-- An instruction that raises leaves the record of its fault kind, its own address and its own word (R211). -/
theorem Raises.faultsWith {i : Instr} {s : State} (h : Raises i s) : FaultsWith (faultKindOf i) i s :=
  ⟨_, h, rfl, rfl, rfl, rfl, rfl⟩

/-! ### Steps by the next instruction, and runs that stay safe (R84, R229) -/

/-- A running core's step executes the next instruction, pc advanced and the diagnostic port silent. -/
theorem step_of_nextInstr {s : State} {i : Instr} (hrun : s.halted = false) (hi : nextInstr s = some i) :
    step s = exec i (advance (quiet s)) := by
  unfold nextInstr at hi
  cases hw : fetchWord s with
  | none => simp [hw] at hi
  | some w =>
    cases hd : decodeWord w with
    | error e => simp [hw, hd] at hi
    | ok j =>
      obtain rfl : j = i := by simpa [hw, hd] using hi
      exact step_of_decodeWord hrun hw hd

/-- A property of running states that each of them can step within holds a run safe for any number of steps. -/
theorem runsSafely_of_step_closed {P : State → Prop} (hrun : ∀ s, P s → s.halted = false)
    (hstep : ∀ s, P s → ∃ t, step s = .next t ∧ P t) {s : State} (hs : P s) (k : Nat) : RunsSafely k s := by
  induction k generalizing s with
  | zero => exact hrun s hs
  | succ k ih =>
    obtain ⟨t, ht, hPt⟩ := hstep s hs
    exact ⟨hrun s hs, t, ht, ih hPt⟩

/-- The jump sets pc back to where the fetch found it, so only the diagnostic port can differ (R102, R229). -/
theorem Finished.step_eq {s : State} (h : Finished s) : step s = .next (quiet s) := by
  obtain ⟨hrun, nnn, hi, hpc⟩ := h
  calc step s = exec (.jpNnn nnn) (advance (quiet s)) := step_of_nextInstr hrun hi
    _ = .next ((quiet s).setPc (addrOperand nnn)) := rfl
    _ = .next (quiet s) := by rw [← hpc]; rfl

/-- Neither the fetch nor pc nor the fault status looks at the diagnostic port. -/
theorem finished_quiet {s : State} (h : Finished s) : Finished (quiet s) := h

/-! ### The obligations -/

/-- Settles O11: the free slot takes the advanced pc, and a full stack raises. -/
theorem callSavesTheReturnAddress : Obligations.CallSavesTheReturnAddress := by
  refine fun nnn s => ⟨decodeWord_encode (.callNnn nnn), fun hsp => ?_, fun hfull => (raises_callNnn hfull).faultsWith⟩
  refine ⟨_, exec_callNnn_of_lt hsp, addrOperand_toNat nnn, CallStack.push_sp _ _ hsp, ?saved, fun k hk => ?others,
    Frame.of_stack s _ _ rfl⟩
  case saved => rw [CallStack.push_entry, if_pos rfl]
  case others => rw [CallStack.push_entry, if_neg hk]

/-- Settles O12: a pop moves SP alone, and an empty stack raises. -/
theorem returnPopsTheLastAddress : Obligations.ReturnPopsTheLastAddress :=
  fun s => ⟨decodeWord_encode .ret,
    fun hsp => ⟨_, exec_ret_of_pos hsp, s.stack.top_eq hsp, s.stack.pop_sp, s.stack.pop_entry,
      Frame.of_stack s _ _ rfl⟩,
    fun hempty => (raises_ret hempty).faultsWith⟩

/-- Settles O13: RET pops the slot that CALL wrote, one below the SP that CALL left. -/
theorem returnUndoesCall : Obligations.ReturnUndoesCall := by
  intro nnn s hsp
  obtain ⟨-, hcall, -⟩ := callSavesTheReturnAddress nnn s
  obtain ⟨t, ht, -, htsp, hsaved, -⟩ := hcall hsp
  refine ⟨t, ht, fun u hu => ?_⟩
  have husp : u.stack.sp.val = s.stack.sp.val + 1 := hu ▸ htsp
  obtain ⟨-, hret, -⟩ := returnPopsTheLastAddress u
  obtain ⟨r, hr, hrpc, hrsp, -⟩ := hret (by omega)
  rw [husp, Nat.add_sub_cancel] at hrpc hrsp
  rw [hu, hsaved] at hrpc
  exact ⟨r, hr, Option.some.inj hrpc, hrsp⟩

/-- Settles O44: the step of a finished program silences the port, and what that leaves is finished again. -/
theorem selfJumpIsAFixedPoint : Obligations.SelfJumpIsAFixedPoint :=
  fun _ hs => ⟨hs.step_eq, runsSafely_of_step_closed (P := Finished) (fun _ h => h.1)
    (fun _ h => ⟨_, h.step_eq, finished_quiet h⟩) hs⟩

/-- Settles O9: each skip is `State.skipIf` on its comparison, and a selector that is not 0 is rejected. -/
theorem registerSkips : Obligations.RegisterSkips := by
  intro x y nn s
  refine ⟨⟨decodeWord_encode (.seVxNn x nn), _, rfl, s.skipIf_beq_pc _ _, Frame.of_skipIf s _⟩,
    ⟨decodeWord_encode (.sneVxNn x nn), _, rfl, s.skipIf_bne_pc _ _, Frame.of_skipIf s _⟩,
    ⟨decodeWord_encode (.seVxVy x y), _, rfl, s.skipIf_beq_pc _ _, Frame.of_skipIf s _⟩,
    ⟨decodeWord_encode (.sneVxVy x y), _, rfl, s.skipIf_bne_pc _ _, Frame.of_skipIf s _⟩, fun n hn => ⟨?_, ?_⟩⟩
  · rw [decodeWord_family5, if_neg hn]
  · rw [decodeWord_family9, if_neg hn]

/-- Settles O10: both jumps set pc alone, and the sum with V0 stays below 2 to the 16th. -/
theorem jumpTargets : Obligations.JumpTargets :=
  fun nnn s =>
    ⟨⟨decodeWord_encode (.jpNnn nnn), _, rfl, addrOperand_toNat nnn, Frame.of_setPc s _⟩,
      decodeWord_encode (.jpV0Nnn nnn), _, rfl, toNat_byte_add_addrOperand (s.reg 0#4) nnn, Frame.of_setPc s _⟩

end Sys2Proof.Machine

/-!
PROOFS, family 42_alu.md: the immediate forms (R121, R122), the copy and the bitwise operations (R123 to R126), and the
sum and the differences with their flag (R127, R128, R130).
-/

namespace Sys2Proof.Machine

/-! ### The difference of two bytes as an integer (R120) -/

/-- Where b is the greater, the integer difference is negative and its remainder by 256 is still the byte (R120). -/
theorem toNat_byte_sub (a b : Byte) : ((a - b).toNat : Int) = (a.toNat - b.toNat : Int) % 256 := by
  have ha := a.isLt
  have hb := b.isLt
  rw [BitVec.toNat_sub]
  omega

/-! ### A destination register, and the flag written after it (R13, R133) -/

theorem State.setReg_reg_same (s : State) (x : RegNo) (b : Byte) : (s.setReg x b).reg x = b := by
  simp

theorem State.setReg_setFlag_reg {x : RegNo} (hx : x ≠ vF) (s : State) (b : Byte) (c : Bool) :
    ((s.setReg x b).setFlag c).reg x = b := by
  rw [State.setFlag_reg, if_neg hx, State.setReg_reg_same]

theorem State.setFlag_carry_toNat (s : State) (a b : Byte) :
    ((s.setFlag (carry a b)).reg vF).toNat = if 256 ≤ a.toNat + b.toNat then 1 else 0 := by
  simp only [State.setFlag_reg, if_true, flagByte_toNat, carry_iff]

theorem State.setFlag_noBorrow_toNat (s : State) (a b : Byte) :
    ((s.setFlag (noBorrow a b)).reg vF).toNat = if b.toNat ≤ a.toNat then 1 else 0 := by
  simp only [State.setFlag_reg, if_true, flagByte_toNat, noBorrow_iff]

/-- SUB and SUBN are one operation, minuend a and subtrahend b, with the operands exchanged (R128, R130). -/
theorem State.setReg_sub_toNat {x : RegNo} (hx : x ≠ vF) (s : State) (a b : Byte) (c : Bool) :
    ((((s.setReg x (a - b)).setFlag c).reg x).toNat : Int) = (a.toNat - b.toNat : Int) % 256 := by
  rw [State.setReg_setFlag_reg hx, toNat_byte_sub]

/-! ### The obligations -/

/-- Settles O17: the difference is written first and the no-borrow flag last, so the flag is what VF holds. -/
theorem subtractGivesDifferenceAndNoBorrow : Obligations.SubtractGivesDifferenceAndNoBorrow :=
  fun x y s =>
    ⟨⟨decodeWord_encode (.subVxVy x y), _, rfl, fun hx => State.setReg_sub_toNat hx s _ _ _,
        State.setFlag_noBorrow_toNat _ _ _, rfl, Frame.of_setReg_setFlag s x _ _⟩,
      decodeWord_encode (.subnVxVy x y), _, rfl, fun hx => State.setReg_sub_toNat hx s _ _ _,
        State.setFlag_noBorrow_toNat _ _ _, rfl, Frame.of_setReg_setFlag s x _ _⟩

/-- Settles O14: one register write each, with the byte sum modulo 256 where VX is added to. -/
theorem loadAndAddImmediate : Obligations.LoadAndAddImmediate := by
  intro x nn s
  refine ⟨⟨decodeWord_encode (.ldVxNn x nn), _, rfl, s.setReg_reg_same x nn, rfl, Frame.of_setReg s x nn⟩,
    decodeWord_encode (.addVxNn x nn), _, rfl, ?sum, rfl, Frame.of_setReg s x _⟩
  case sum => rw [State.setReg_reg_same, BitVec.toNat_add]

/-- Settles O15: one register write each, and what it writes is the operation bit by bit. -/
theorem copyAndBitwise : Obligations.CopyAndBitwise := by
  intro x y s
  refine ⟨⟨decodeWord_encode (.ldVxVy x y), _, rfl, s.setReg_reg_same x _, rfl, Frame.of_setReg s x _⟩,
    ⟨decodeWord_encode (.orVxVy x y), _, rfl, fun k => ?or, rfl, Frame.of_setReg s x _⟩,
    ⟨decodeWord_encode (.andVxVy x y), _, rfl, fun k => ?and, rfl, Frame.of_setReg s x _⟩,
    decodeWord_encode (.xorVxVy x y), _, rfl, fun k => ?xor, rfl, Frame.of_setReg s x _⟩
  case or => rw [State.setReg_reg_same, BitVec.getLsbD_or]
  case and => rw [State.setReg_reg_same, BitVec.getLsbD_and]
  case xor => rw [State.setReg_reg_same, BitVec.getLsbD_xor]

/-- Settles O16: the byte sum is written first and the carry last, so the carry is what VF holds. -/
theorem addGivesSumAndCarry : Obligations.AddGivesSumAndCarry := by
  intro x y s
  refine ⟨decodeWord_encode (.addVxVy x y), _, rfl, fun hx => ?sum, State.setFlag_carry_toNat _ _ _, rfl,
    Frame.of_setReg_setFlag s x _ _⟩
  case sum => rw [State.setReg_setFlag_reg hx, BitVec.toNat_add]

end Sys2Proof.Machine

/-!
PROOFS, family 43_index_memory.md: what I is set to (R151 to R153), and the digits stored, the registers stored
and the registers loaded, each in range or raising MEM_OUT_OF_RANGE (R154 to R157).
-/

namespace Sys2Proof.Machine

/-! ### What I is set to (R152, R153) -/

theorem toNat_byte_zeroExtend (b : Byte) : (b.zeroExtend 16 : Word).toNat = b.toNat :=
  BitVec.toNat_setWidth_of_le (by decide)

/-- FX29's product does not wrap: it is at most 5 * 0xFF (R153, D31). -/
theorem toNat_glyphAddress (d : Byte) : (glyphAddress Config.glyphMask d).toNat = 5 * d.toNat := by
  have hd := d.isLt
  have hunmasked : glyphAddress Config.glyphMask d = 5#16 * (d.zeroExtend 16 : Word) := rfl
  rw [hunmasked, BitVec.toNat_mul, toNat_byte_zeroExtend, BitVec.toNat_ofNat]
  omega

/-! ### The bytes stored (R154, R155) -/

/-- Byte k of those written is what address base + k reads. -/
theorem Memory.get_setBytes_add {m : Memory} (h : Memory.wf m) {bytes : List Byte} {base k : Nat} {b : Byte}
    (hb : base + bytes.length ≤ Config.memSize) (hk : bytes[k]? = some b) :
    (m.setBytes base bytes).get (base + k) = b := by
  rw [Memory.get_setBytes h bytes hb, if_pos (Nat.le_add_right base k), Nat.add_sub_cancel_left, hk, Option.getD_some]

theorem bcdDigits_length (v : Byte) : (bcdDigits v).length = 3 := rfl

/-- A decimal digit fits in a byte, so it is what its address reads as a number. -/
theorem Memory.toNat_get_setBytes_bcdDigits {m : Memory} (h : Memory.wf m) {v : Byte} {base k d : Nat}
    (hb : base + 3 ≤ Config.memSize) (hk : (bcdDigits v)[k]? = some (BitVec.ofNat 8 d)) (hd : d < 10) :
    ((m.setBytes base (bcdDigits v)).get (base + k)).toNat = d := by
  rw [Memory.get_setBytes_add h (bcdDigits_length v ▸ hb) hk, BitVec.toNat_ofNat]
  omega

theorem State.regsUpTo_getElem?_toNat (s : State) {x r : RegNo} (h : r.toNat ≤ x.toNat) :
    (s.regsUpTo x)[r.toNat]? = some (s.reg r) := by
  rw [s.regsUpTo_getElem? x r.toNat h, BitVec.ofNat_toNat, BitVec.setWidth_eq]

/-! ### A store through I, in its two cases (R157) -/

theorem storeAtI_of_le {i : Instr} {bytes : List Byte} {s : State} (h : s.ireg.toNat + bytes.length ≤ 4096) :
    storeAtI i bytes s = .next { s with mem := s.mem.setBytes s.ireg.toNat bytes } := by
  obtain ⟨-, hstore⟩ | ⟨-, hout, -⟩ := storeAtI_cases i bytes s
  · exact hstore
  · omega

theorem storeAtI_of_lt {i : Instr} {bytes : List Byte} {s : State} (hne : bytes.length ≠ 0)
    (h : 4096 < s.ireg.toNat + bytes.length) :
    storeAtI i bytes s = .next (raiseFault .memOutOfRange (s.pc - 2#16) (some (encode i)) s) := by
  obtain ⟨hin, -⟩ | ⟨-, -, hraise⟩ := storeAtI_cases i bytes s
  · omega
  · exact hraise

theorem raises_ldBVx {x : RegNo} {s : State} (h : 0xFFF < s.ireg.toNat + 2) : Raises (.ldBVx x) s :=
  storeAtI_of_lt (by rw [bcdDigits_length]; decide) (by rw [bcdDigits_length]; omega)

theorem raises_ldIndVx {x : RegNo} {s : State} (h : 0xFFF < s.ireg.toNat + x.toNat) : Raises (.ldIndVx x) s :=
  storeAtI_of_lt (by rw [s.regsUpTo_length]; omega) (by rw [s.regsUpTo_length]; omega)

/-! ### A load through I, in its two cases (R156, R157) -/

/-- The bytes at I to I + x. -/
def State.bytesUpTo (s : State) (x : RegNo) : List Byte :=
  (List.range (x.toNat + 1)).map fun k => s.mem.get (s.ireg.toNat + k)

theorem State.bytesUpTo_length (s : State) (x : RegNo) : (s.bytesUpTo x).length = x.toNat + 1 := by
  rw [State.bytesUpTo, List.length_map, List.length_range]

theorem State.bytesUpTo_getElem? (s : State) {x : RegNo} {k : Nat} (h : k ≤ x.toNat) :
    (s.bytesUpTo x)[k]? = some (s.mem.get (s.ireg.toNat + k)) := by
  rw [State.bytesUpTo, List.getElem?_map, List.getElem?_range (by omega), Option.map_some]

theorem exec_ldVxInd_of_le {x : RegNo} {s : State} (h : s.ireg.toNat + x.toNat ≤ 0xFFF) :
    exec (.ldVxInd x) s = .next (s.loadRegs (s.bytesUpTo x)) := by
  have hread : readBytes s s.base (x.toNat + 1) = some (s.bytesUpTo x) :=
    readBytes_eq_some.2 ⟨.inr (by rw [State.base]; omega), rfl⟩
  simp only [exec, execLdVxInd, hread]

theorem raises_ldVxInd {x : RegNo} {s : State} (h : 0xFFF < s.ireg.toNat + x.toNat) : Raises (.ldVxInd x) s := by
  have hread : readBytes s s.base (x.toNat + 1) = none :=
    readBytes_eq_none.2 ⟨Nat.succ_ne_zero _, by rw [State.base]; omega⟩
  simp only [Raises, exec, execLdVxInd, hread, raiseBy, ipc, faultKindOf]

/-! ### The obligations -/

/-- Settles O21: byte k of the three written is digit k. -/
theorem bcdStore : Obligations.BcdStore := by
  refine fun x s hwf => ⟨decodeWord_encode (.ldBVx x), fun hin => ?_, fun hout => (raises_ldBVx hout).faultsWith⟩
  have hrange : s.ireg.toNat + 3 ≤ 4096 := by omega
  have hreg := (s.reg x).isLt
  refine ⟨_, storeAtI_of_le hrange, ?hundreds, ?tens, ?ones, rfl, Frame.of_setBytes s _ _ (bcdDigits_length _)⟩
  case hundreds => exact Memory.toNat_get_setBytes_bcdDigits (k := 0) hwf hrange rfl (by omega)
  case tens => exact Memory.toNat_get_setBytes_bcdDigits hwf hrange rfl (by omega)
  case ones => exact Memory.toNat_get_setBytes_bcdDigits hwf hrange rfl (by omega)

/-- Settles O22: byte r of those written is V[r]. -/
theorem registerStore : Obligations.RegisterStore := by
  refine fun x s hwf => ⟨decodeWord_encode (.ldIndVx x), fun hin => ?_, fun hout => (raises_ldIndVx hout).faultsWith⟩
  have hlen : s.ireg.toNat + (s.regsUpTo x).length ≤ 4096 := by rw [s.regsUpTo_length]; omega
  exact ⟨_, storeAtI_of_le hlen, fun r hr => Memory.get_setBytes_add hwf hlen (s.regsUpTo_getElem?_toNat hr), rfl,
    Frame.of_setBytes s _ _ (s.regsUpTo_length x)⟩

/-- Settles O23: register r takes byte r of those read. -/
theorem registerLoad : Obligations.RegisterLoad := by
  refine fun x s => ⟨decodeWord_encode (.ldVxInd x), fun hin => ?_, fun hout => (raises_ldVxInd hout).faultsWith⟩
  refine ⟨_, exec_ldVxInd_of_le hin, fun r hr => ?loaded, rfl, Frame.of_loadRegs s _ x (s.bytesUpTo_length x)⟩
  case loaded => rw [State.loadRegs_reg, s.bytesUpTo_getElem? hr, Option.getD_some]

/-- Settles O24: the store leaves V[0] at I and V[1] at I + 1, where a fetch with pc = I reads its word. -/
theorem storedCodeIsFetched : Obligations.StoredCodeIsFetched := by
  intro x s t u hwf hx hin hexec hmem hpc
  obtain ⟨-, hstore, -⟩ := registerStore x s hwf
  obtain ⟨t', ht', hbytes, -⟩ := hstore hin
  obtain rfl := Host.Outcome.next.inj (hexec.symm.trans ht')
  have hhi : t.mem.get s.ireg.toNat = s.reg 0#4 := hbytes 0#4 (Nat.zero_le _)
  have hlo : t.mem.get (s.ireg.toNat + 1) = s.reg 1#4 := hbytes 1#4 hx
  refine fetchWord_eq_some.2 ⟨?range, ?bytes⟩
  case range => rw [hpc]; omega
  case bytes => rw [hmem, hpc, hhi, hlo]

/-- Settles O20: each writes I alone; the sum wraps at 2 to the 16th, the product cannot. -/
theorem indexWrites : Obligations.IndexWrites := by
  intro x nnn s
  refine ⟨⟨decodeWord_encode (.ldINnn nnn), _, rfl, addrOperand_toNat nnn, rfl, Frame.of_ireg s _⟩,
    ⟨decodeWord_encode (.addIVx x), _, rfl, ?sum, rfl, Frame.of_ireg s _⟩,
    decodeWord_encode (.ldFVx x), _, rfl, toNat_glyphAddress _, rfl, Frame.of_ireg s _⟩
  case sum => rw [BitVec.toNat_add, toNat_byte_zeroExtend]

end Sys2Proof.Machine

/-!
PROOFS, family 44_display.md: CLS clears the frame buffer and sets dirty (R171).
-/

namespace Sys2Proof.Machine

/-- Settles O25: the frame buffer and dirty are all that CLS writes, and a cleared frame buffer has no pixel set. -/
theorem clearScreen : Obligations.ClearScreen := by
  intro s
  have hexec : exec .cls s = .next { s with fb := FrameBuffer.clear, dirty := true } := rfl
  exact ⟨decodeWord_encode .cls, _, hexec, FrameBuffer.pixel_clear, rfl, rfl, Frame.of_display s FrameBuffer.clear true⟩

end Sys2Proof.Machine

/-!
PROOFS, family 45_input_timers.md: LD VX, K in its two cases (R194) and the timer moves (R193, R195, R196).
-/

namespace Sys2Proof.Machine

/-! ### LD VX, K, in its two cases (R194) -/

theorem exec_ldVxK_of_firstKey_some {x : RegNo} {s : State} {k : Byte} (h : s.firstKey = some k) :
    exec (.ldVxK x) s = .next (s.setReg x k) := by
  simp only [exec, execLdVxK, h]

theorem exec_ldVxK_of_firstKey_none {x : RegNo} {s : State} (h : s.firstKey = none) :
    exec (.ldVxK x) s = .next (s.setPc (s.pc - 2#16)) := by
  simp only [exec, execLdVxK, h]

/-! ### The obligations -/

/-- Settles O29: the scan finds the lowest pressed key and VX takes its number, or it finds none and pc alone goes back. -/
theorem awaitKeyTakesTheLowest : Obligations.AwaitKeyTakesTheLowest := by
  refine fun x s => ⟨decodeWord_encode (.ldVxK x), fun k hk hpressed hlow => ?taken, fun hnone => ?waits⟩
  case taken =>
    have hbyte : (BitVec.ofNat 8 k.toNat).toNat = k.toNat := by
      rw [BitVec.toNat_ofNat]
      omega
    refine ⟨_, exec_ldVxK_of_firstKey_some (firstKey_eq_some s k hk hpressed hlow), ?_, rfl, Frame.of_setReg s x _⟩
    rw [State.setReg_reg_same, hbyte]
  case waits => exact ⟨_, exec_ldVxK_of_firstKey_none (firstKey_eq_none s hnone), rfl, Frame.of_setPc s _⟩

/-- Settles O31: each is one write of the whole byte, so its frame is that of the register or the timer written. -/
theorem timerMoves : Obligations.TimerMoves :=
  fun x s =>
    ⟨⟨decodeWord_encode (.ldVxDt x), _, rfl, s.setReg_reg_same x s.dt, rfl, Frame.of_setReg s x s.dt⟩,
      ⟨decodeWord_encode (.ldDtVx x), _, rfl, rfl, rfl, Frame.of_dt s (s.reg x)⟩,
      decodeWord_encode (.ldStVx x), _, rfl, rfl, rfl, Frame.of_st s (s.reg x)⟩

end Sys2Proof.Machine

/-!
PROOFS, family 60_exceptions.md: every interleaving of the host's transactions keeps the invariant (R228), the diagnostic
is a pulse (R216), and the tick (R220).
-/

namespace Sys2Proof.Machine

/-! ### What a transaction that goes through has done (R225, R242) -/

theorem Session.resume_eq_next {b : Bool} {r : Result} {h' : Session} :
    Session.resume b r = .next h' ↔ ∃ t, r = .next t ∧ h' = ⟨t, b⟩ := by
  cases r with
  | next t => simp [Session.resume, eq_comm]
  | fault r => simp [Session.resume]
  | refused r => simp [Session.resume]

/-- A byte goes in only at an offset inside the image window. -/
theorem loadByte_eq_next {offset : Addr12} {data : Byte} {s t : State} :
    loadByte offset data s = .next t ↔
      offset.toNat < 3584 ∧ t = { quiet s with mem := s.mem.set (0x200 + offset.toNat) data } := by
  by_cases h : offset.toNat < 3584
  · simp [loadByte, loadOffsetOk, Config.maxImage, Config.programBase, h, eq_comm]
  · simp [loadByte, loadOffsetOk, Config.maxImage, h]

/-- An image goes in only whole. -/
theorem loadImage_eq_next {image : List Byte} {s t : State} :
    loadImage image s = .next t ↔
      image.length ≤ 3584 ∧ t = { quiet s with mem := s.mem.setBytes 0x200 image } := by
  by_cases h : image.length ≤ 3584
  · simp [loadImage, imageFits, Config.maxImage, Config.programBase, h, eq_comm]
  · simp [loadImage, imageFits, Config.maxImage, h]

theorem Session.apply_loadByte_eq_next {offset : Addr12} {data : Byte} {h h' : Session} :
    Session.apply (.loadByte offset data) h = .next h' ↔
      h.started = false ∧ ∃ t, loadByte offset data h.core = .next t ∧ h' = ⟨t, false⟩ := by
  cases hstarted : h.started with
  | true => simp [Session.apply, hstarted]
  | false => simp [Session.apply, hstarted, Session.resume_eq_next]

theorem Session.apply_step_eq_next {draw : Byte} {h h' : Session} :
    Session.apply (.step draw) h = .next h' ↔ ∃ t, stepWith draw h.core = .next t ∧ h' = ⟨t, true⟩ := by
  rw [Session.apply, Session.resume_eq_next]

theorem Session.load_eq_next {image : List Byte} {h h' : Session} :
    Session.load image h = .next h' ↔
      h.started = false ∧ ∃ t, loadImage image h.core = .next t ∧ h' = ⟨t, false⟩ := by
  cases hstarted : h.started with
  | true => simp [Session.load, hstarted]
  | false => simp [Session.load, hstarted, Session.resume_eq_next]

/-! ### The invariant under one transaction (R228) -/

/-- Registers, timers, display, latch and the model's own fields do not matter to the invariant. -/
theorem Inv.congr {s t : State} (hs : Inv s) (hrec : SameRecord s t) (hmem : Memory.wf t.mem) (hpc : t.pc = s.pc)
    (hstack : t.stack = s.stack) : Inv t where
  memory := hmem
  record := hs.record.congr hrec
  pc hrun := hpc ▸ hs.pc (hrec.1 ▸ hrun)
  stack hrun := hstack ▸ hs.stack (hrec.1 ▸ hrun)

/-- At construction no cell is written, no entry is live and the record is empty (R240). -/
theorem inv_resetOf (p : Config.Params) : Inv (State.resetOf p) where
  memory := ⟨.nil, nofun⟩
  record := ⟨rfl, rfl, rfl, rfl⟩
  pc _ := (by decide : (0x0200#16).toNat ≤ 0x10FE)
  stack _ _ _ hk := absurd hk (Nat.not_lt_zero _)

theorem inv_construct (s : State) : Inv (construct s) :=
  (inv_resetOf s.params).congr ⟨rfl, rfl, rfl, rfl, rfl⟩ (inv_resetOf s.params).memory rfl rfl

theorem Inv.stepWith {s t : State} (hs : Inv s) {draw : Byte} (h : Machine.stepWith draw s = .next t) : Inv t :=
  stepKeepsTheInvariant { s with randIn := [draw] } t (hs.congr ⟨rfl, rfl, rfl, rfl, rfl⟩ hs.memory rfl rfl) h

/-- The window of offsets lies inside the address space, so the canonical form is kept. -/
theorem Inv.loadByte {s t : State} (hs : Inv s) {offset : Addr12} {data : Byte}
    (h : Machine.loadByte offset data s = .next t) : Inv t := by
  obtain ⟨hoffset, rfl⟩ := loadByte_eq_next.1 h
  have haddr : 0x200 + offset.toNat < 4096 := by omega
  exact hs.congr ⟨rfl, rfl, rfl, rfl, rfl⟩ (Memory.wf_set hs.memory haddr data) rfl rfl

/-- What the tick, the latch and the dirty flag write does not matter to the invariant. -/
theorem Inv.of_hostFields {s : State} (hs : Inv s) (dt st : Byte) (dirty : Bool) (keys : Vector Bool 16) :
    Inv { quiet s with dt := dt, st := st, dirty := dirty, keys := keys } :=
  hs.congr ⟨rfl, rfl, rfl, rfl, rfl⟩ hs.memory rfl rfl

/-- Each transaction that goes through keeps the invariant, whatever state of the session it meets. -/
theorem Session.apply_inv {op : HostOp} {h h' : Session} (hinv : Inv h.core) (happly : Session.apply op h = .next h') :
    Inv h'.core := by
  cases op with
  | construct =>
    obtain rfl := Host.Outcome.next.inj happly
    exact inv_construct h.core
  | loadByte offset data =>
    obtain ⟨-, t, ht, rfl⟩ := Session.apply_loadByte_eq_next.1 happly
    exact hinv.loadByte ht
  | step draw =>
    obtain ⟨t, ht, rfl⟩ := Session.apply_step_eq_next.1 happly
    exact hinv.stepWith ht
  | setKeys | tick | consumeDirty =>
    obtain rfl := Host.Outcome.next.inj happly
    exact hinv.of_hostFields _ _ _ _

/-! ### A session, transaction by transaction -/

theorem Session.run_cons_eq_next {op : HostOp} {ops : List HostOp} {h h' : Session} :
    Session.run (op :: ops) h = .next h' ↔ ∃ k, Session.apply op h = .next k ∧ Session.run ops k = .next h' := by
  cases hop : Session.apply op h with
  | next k => simp [Session.run, hop]
  | fault r => simp [Session.run, hop]
  | refused r => simp [Session.run, hop]

/-- What every transaction keeps, every interleaving keeps (R228). -/
theorem Session.run_keeps {P : Session → Prop}
    (hkeep : ∀ op h h', P h → Session.apply op h = .next h' → P h') {ops : List HostOp} {h h' : Session} (hP : P h)
    (hrun : Session.run ops h = .next h') : P h' := by
  induction ops generalizing h with
  | nil =>
    obtain rfl := Host.Outcome.next.inj hrun
    exact hP
  | cons op ops ih =>
    obtain ⟨k, hop, hrest⟩ := Session.run_cons_eq_next.1 hrun
    exact ih (hkeep op h k hP hop) hrest

/-! ### The diagnostic port (R216) -/

/-- No instruction touches the diagnostic port, one that faults neither. -/
theorem exec_diag {i : Instr} {s t : State} (h : exec i s = .next t) : t.diag = s.diag := by
  obtain ⟨-, -, -, -, -, -, -, -, -, -, hdiag, -⟩ | rfl := exec_next_cases h
  · exact hdiag
  · exact raiseFault_diag _ _ _ s

/-- A step emits `Diag(w, ipc)` exactly where it met the UNRECOGNIZED word w at ipc. -/
theorem step_diag_eq_some {s t : State} (hrun : s.halted = false) (hstep : step s = .next t) (d : Diag) :
    t.diag = some d ↔ d.addr = s.pc ∧ fetchWord s = some d.opcode ∧ ∃ e, decodeWord d.opcode = .error e := by
  obtain ⟨h, -⟩ | ⟨-, hw, h⟩ | ⟨w, i, -, hw, hd, h⟩ | ⟨w, e, -, hw, hd, h⟩ := step_cases s
  · cases hrun.symm.trans h
  · obtain rfl := Host.Outcome.next.inj (h.symm.trans hstep)
    simp [hw]
  · have hsilent : t.diag = none := exec_diag (h.symm.trans hstep)
    refine iff_of_false (by simp [hsilent]) fun ⟨_, hopcode, e, he⟩ => ?_
    obtain rfl := Option.some.inj (hw.symm.trans hopcode)
    cases hd.symm.trans he
  · obtain rfl := Host.Outcome.next.inj (h.symm.trans hstep)
    constructor
    · rintro ⟨⟩
      exact ⟨rfl, hw, e, hd⟩
    · rintro ⟨haddr, hopcode, -⟩
      obtain rfl := Option.some.inj (hw.symm.trans hopcode)
      rw [← haddr]

theorem loadByte_diag {offset : Addr12} {data : Byte} {s t : State} (h : loadByte offset data s = .next t) :
    t.diag = none := by
  obtain ⟨-, rfl⟩ := loadByte_eq_next.1 h
  rfl

theorem loadImage_diag {image : List Byte} {s t : State} (h : loadImage image s = .next t) : t.diag = none := by
  obtain ⟨-, rfl⟩ := loadImage_eq_next.1 h
  rfl

/-- A transaction that is no step ends the pulse (R216, R225; log 4). -/
theorem Session.apply_diag {op : HostOp} {h h' : Session} (hop : ∀ r, op ≠ .step r)
    (happly : Session.apply op h = .next h') : h'.core.diag = none := by
  cases op with
  | step draw => exact absurd rfl (hop draw)
  | loadByte offset data =>
    obtain ⟨-, t, ht, rfl⟩ := Session.apply_loadByte_eq_next.1 happly
    exact loadByte_diag ht
  | construct | setKeys | tick | consumeDirty =>
    obtain rfl := Host.Outcome.next.inj happly
    rfl

theorem Session.load_diag {image : List Byte} {h h' : Session} (hload : Session.load image h = .next h') :
    h'.core.diag = none := by
  obtain ⟨-, t, ht, rfl⟩ := Session.load_eq_next.1 hload
  exact loadImage_diag ht

/-! ### The timers (R220) -/

theorem toNat_countDown (t : Byte) : (countDown t).toNat = t.toNat - 1 := by
  rw [countDown]
  split
  · bv_omega
  · omega

/-! ### The obligations -/

/-- Settles O39: one transaction keeps the invariant, and so does a list of them. -/
theorem sessionKeepsTheInvariant : Obligations.SessionKeepsTheInvariant := fun _ _ _ hinv hrun =>
  Session.run_keeps (P := fun h => Inv h.core) (fun _ _ _ => Session.apply_inv) hinv hrun

/-- Settles O47: the step in its cases, and every other transaction by what it has done. -/
theorem diagnosticIsAPulse : Obligations.DiagnosticIsAPulse :=
  ⟨fun _ _ d hrun hstep => step_diag_eq_some hrun hstep d, fun _ _ _ => Session.apply_diag,
    fun _ _ _ => Session.load_diag⟩

/-- Settles O45: each timer is `countDown` of what it was, beside the silenced port. -/
theorem tickCountsTimersDown : Obligations.TickCountsTimersDown :=
  fun s => ⟨fun _ => ⟨toNat_countDown s.dt, toNat_countDown s.st⟩, rfl⟩

end Sys2Proof.Machine

/-!
PROOFS, family 70_reset_and_hazards.md: the construction state field by field (R240), its invariant, and the mark that keeps
the load window (R243).
-/

namespace Sys2Proof.Machine

/-! ### The construction state, as the accessors read it (R240) -/

section
variable (p : Config.Params)

/-- No cell is written at construction, so every address reads as the background of the parameter's font. -/
@[simp] theorem State.resetOf_mem_get (a : Nat) : (State.resetOf p).mem.get a = background p.font a := rfl

@[simp] theorem State.resetOf_reg (x : RegNo) : (State.resetOf p).reg x = 0x00#8 := Vector.getElem_replicate x.isLt

theorem State.resetOf_entry {k : Nat} (hk : k < p.stackCapacity) : (State.resetOf p).stack.entry k = some 0#16 :=
  Vector.getElem?_replicate_of_lt hk

theorem State.resetOf_fb : (State.resetOf p).fb = FrameBuffer.clear := rfl

@[simp] theorem State.resetOf_key (k : BitVec 4) : (State.resetOf p).key k = false := Vector.getElem_replicate k.isLt

end

/-! ### The obligations -/

/-- Settles O34: memory is the background content, the four arrays are constant, and the rest are the values written. -/
theorem resetLeavesTheConstructionState : Obligations.ResetLeavesTheConstructionState := by
  refine ⟨rfl, rfl, fun p => ⟨State.resetOf_params p, ?font, ?above, State.resetOf_reg p, rfl, rfl, rfl,
    fun _ => State.resetOf_entry p, rfl, rfl, ?pixels, rfl, State.resetOf_key p, rfl, rfl, rfl, rfl, rfl⟩⟩
  case font => exact fun g k => (State.resetOf_mem_get p _).trans (background_glyph g k)
  case above => exact fun a ha _ => (State.resetOf_mem_get p a).trans (background_above ha)
  case pixels => exact fun x y => State.resetOf_fb p ▸ FrameBuffer.pixel_clear x y

/-- Settles O36: this hardware's construction state is the one for its own parameters. -/
theorem resetMeetsTheInvariant : Obligations.ResetMeetsTheInvariant := ⟨inv_resetOf Config.hardware, inv_resetOf⟩

/-- Settles O50: a byte goes in only in an unstarted session, which it leaves unstarted; the others set or keep the mark. -/
theorem startedUntilConstruct : Obligations.StartedUntilConstruct := by
  intro op h h' happly
  cases op with
  | loadByte offset data =>
    obtain ⟨hunstarted, _, -, rfl⟩ := Session.apply_loadByte_eq_next.1 happly
    exact hunstarted.symm
  | step draw =>
    obtain ⟨_, -, rfl⟩ := Session.apply_step_eq_next.1 happly
    rfl
  | construct | setKeys | tick | consumeDirty =>
    obtain rfl := Host.Outcome.next.inj happly
    rfl

end Sys2Proof.Machine

/-!
PROOFS, family other, the decoder and the step: the UNRECOGNIZED words (R86, D11) and what a step does with one, the fetch
(R80), the step refused by a halted core (R212) and fault entry (R211).
-/

namespace Sys2Proof

/-! ### The fields and the bytes of a word as numbers (R53, R82) -/

theorem fieldF_toNat (w : Word) : (fieldF w).toNat = w.toNat / 4096 := by
  have hw := w.isLt
  rw [fieldF, BitVec.extractLsb'_toNat, Nat.shiftRight_eq_div_pow]
  omega

theorem fieldN_toNat (w : Word) : (fieldN w).toNat = w.toNat % 16 := BitVec.extractLsb'_toNat 0 4 w

theorem fieldNN_toNat (w : Word) : (fieldNN w).toNat = w.toNat % 256 := BitVec.extractLsb'_toNat 0 8 w

theorem wordOfBytes_toNat (hi lo : Byte) : (wordOfBytes hi lo).toNat = 256 * hi.toNat + lo.toNat := by
  rw [wordOfBytes, BitVec.toNat_append, ← Nat.shiftLeft_add_eq_or_of_lt lo.isLt, Nat.shiftLeft_eq]
  omega

/-! ### What each sub-selector rejects (R86) -/

/-- Family 8 is left with the selectors outside its nine rows. -/
theorem decode8_error_iff (n : Nibble) (x y : RegNo) :
    (∃ e, decode8 n x y = .error e) ↔ n.toNat ∈ [0x8, 0x9, 0xA, 0xB, 0xC, 0xD, 0xF] := by
  unfold decode8
  split
  case h_10 =>
    refine iff_of_true ⟨_, rfl⟩ ?_
    simp only [imp_false, List.mem_cons, List.not_mem_nil, or_false] at *
    bv_omega
  all_goals exact iff_of_false nofun (by decide)

theorem decodeE_error_iff (nn : Byte) (x : RegNo) :
    (∃ e, decodeE nn x = .error e) ↔ nn.toNat ∉ [0x9E, 0xA1] := by
  unfold decodeE
  split
  case h_3 =>
    refine iff_of_true ⟨_, rfl⟩ ?_
    simp only [imp_false, List.mem_cons, List.not_mem_nil, or_false] at *
    bv_omega
  all_goals exact iff_of_false nofun (by decide)

theorem decodeF_error_iff (nn : Byte) (x : RegNo) :
    (∃ e, decodeF nn x = .error e) ↔ nn.toNat ∉ [0x07, 0x0A, 0x15, 0x18, 0x1E, 0x29, 0x33, 0x55, 0x65] := by
  unfold decodeF
  split
  case h_10 =>
    refine iff_of_true ⟨_, rfl⟩ ?_
    simp only [imp_false, List.mem_cons, List.not_mem_nil, or_false] at *
    bv_omega
  all_goals exact iff_of_false nofun (by decide)

/-- A family with one accepted form rejects the words without it. -/
theorem ite_error_iff {p : Prop} [Decidable p] (i : Instr) (e₀ : DecodeError) :
    (∃ e, (if p then .ok i else .error e₀ : Except DecodeError Instr) = .error e) ↔ ¬ p := by
  split
  · exact iff_of_false nofun (not_not_intro ‹p›)
  · exact iff_of_true ⟨e₀, rfl⟩ ‹¬ p›

/-! ### The obligations on the decoder -/

/-- Settles O3: by the top nibble, case `h_k` its value k - 1; a family that rejects nothing is in none of the classes. -/
theorem unrecognizedWordsAreTheSixClasses : Obligations.UnrecognizedWordsAreTheSixClasses := by
  intro w
  have hF := fieldF_toNat w
  unfold decodeWord
  generalize fieldF w = f at hF
  rw [← hF, ← fieldN_toNat w, ← fieldNN_toNat w]
  split
  case h_1 =>
    by_cases hcls : w = 0x00E0#16
    · simp [hcls]
    · have hne : w.toNat ≠ 0x00E0 := fun h => hcls (BitVec.eq_of_toNat_eq h)
      rw [if_neg hcls, ite_error_iff]
      simp [← BitVec.toNat_inj, hne]
  case h_6 | h_10 =>
    rw [ite_error_iff]
    simp [← BitVec.toNat_inj]
  case h_9 => simp [decode8_error_iff]
  case h_15 => simp [decodeE_error_iff]
  case h_16 =>
    have hf : f = 0xF#4 := by
      simp only [imp_false] at *
      bv_omega
    simp [hf, decodeF_error_iff]
  case h_2 | h_3 | h_4 | h_5 | h_7 | h_8 | h_11 | h_12 | h_13 | h_14 => simp

/-- Settles O4: each word is a closed term the decoder evaluates. -/
theorem wordsOfEveryFamilyDecode : Obligations.WordsOfEveryFamilyDecode := by
  unfold Obligations.WordsOfEveryFamilyDecode
  decide

end Sys2Proof

namespace Sys2Proof.Machine

/-! ### The step, in its three cases that run no instruction (R80, R86, R212) -/

theorem step_of_halted {s : State} (hhalt : s.halted = true) :
    step s = .fault (.coreHalted s.faultKind s.faultPc s.faultOpcode s.faultOpcodeValid) := if_pos hhalt

theorem step_of_fetchWord_none {s : State} (hrun : s.halted = false) (hw : fetchWord s = none) :
    step s = .next (raiseFault .fetchOutOfRange s.pc none (quiet s)) := by
  simp only [step, hrun, hw, fetchFault, quiet_pc, Bool.false_eq_true, if_false]

theorem step_of_decodeWord_error {s : State} {w : Word} {e : DecodeError} (hrun : s.halted = false)
    (hw : fetchWord s = some w) (hd : decodeWord w = .error e) :
    step s = .next { advance (quiet s) with diag := some ⟨w, s.pc⟩ } := by
  simp [step, hrun, hw, hd, unrecognized, Config.strictDecode]

/-- Fault entry leaves its own arguments as the record, 0 and not valid where it is given no word (R211). -/
theorem halted_raiseFault (kind : FaultKind) (pc : Word) (opcode : Option Word) (s : State) :
    Halted kind pc (opcode.getD 0#16) opcode.isSome (raiseFault kind pc opcode s) := ⟨rfl, rfl, rfl, rfl, rfl⟩

/-! ### The obligations on the step -/

/-- Settles O7: the two bytes at pc, the first the more significant, or the fetch fault. -/
theorem fetchIsBigEndianOrFaults : Obligations.FetchIsBigEndianOrFaults := by
  refine fun s hrun => ⟨fun hin => ?_, fun hout => ?_⟩
  · exact ⟨_, fetchWord_eq_some.2 ⟨by omega, rfl⟩, wordOfBytes_toNat _ _⟩
  · exact ⟨_, step_of_fetchWord_none hrun (fetchWord_eq_none.2 (by omega)), halted_raiseFault _ _ none _⟩

/-- Settles O6: the fetched word is rejected, and what is left is the advanced pc and the event. -/
theorem unrecognizedWordOnlyAdvancesAndReports : Obligations.UnrecognizedWordOnlyAdvancesAndReports :=
  fun _ _ _ hrun hpc hw hd => step_of_decodeWord_error hrun (fetchWord_eq_some.2 ⟨hpc, hw⟩) hd

/-- Settles O8: what the host is told is the record the core holds. -/
theorem haltedCoreRefusesEveryStep : Obligations.HaltedCoreRefusesEveryStep := by
  rintro _ _ _ _ s ⟨hhalt, rfl, rfl, rfl, rfl⟩
  exact step_of_halted hhalt

/-- Settles O32: with a word and without one. -/
theorem faultEntryWritesTheRecord : Obligations.FaultEntryWritesTheRecord :=
  fun kind pc w s => ⟨halted_raiseFault kind pc (some w) s, halted_raiseFault kind pc none s⟩

end Sys2Proof.Machine

/-!
PROOFS, family other, instructions: the shifts (R129, R131), the key skips (R191, R192, R197), the wait for a key (R194,
R248), and the writers of VF (R22).
-/

namespace Sys2Proof.Machine

/-! ### The shifts (R129, R131) -/

theorem lowBit_toNat (a : Byte) : (flagByte (lowBit a)).toNat = a.toNat % 2 := by
  simp only [flagByte_toNat, lowBit, BitVec.getLsbD, Nat.testBit_zero, decide_eq_true_eq]
  split <;> omega

theorem highBit_toNat (a : Byte) : (flagByte (highBit a)).toNat = a.toNat / 128 := by
  have ha := a.isLt
  simp only [flagByte_toNat, highBit, BitVec.getLsbD, Nat.testBit_eq_decide_div_mod_eq, decide_eq_true_eq]
  split <;> omega

theorem shiftReg_reg_of_ne {x : RegNo} (hx : x ≠ vF) (vfLast : Bool) (out : Byte → Bool) (shift : Byte → Byte)
    (s : State) :
    (shiftReg vfLast out shift x s).reg x = shift (s.reg x) ∧
      (shiftReg vfLast out shift x s).reg vF = flagByte (out (s.reg x)) := by
  simp [shiftReg, hx, hx.symm]

/-- With X = F the shift reads the flag that was just written (D13). -/
theorem shiftReg_reg_vF (out : Byte → Bool) (shift : Byte → Byte) (s : State) :
    (shiftReg Config.shiftVFLast out shift vF s).reg vF = shift (flagByte (out (s.reg vF))) := by
  simp [shiftReg, Config.shiftVFLast]

theorem toNat_shiftRight_one (a : Byte) : (a >>> 1).toNat = a.toNat / 2 := by
  rw [BitVec.toNat_ushiftRight, Nat.shiftRight_eq_div_pow, pow_one]

theorem toNat_shiftLeft_one (a : Byte) : (a <<< 1).toNat = 2 * a.toNat % 256 := by
  rw [BitVec.toNat_shiftLeft, Nat.shiftLeft_eq, pow_one, mul_comm]

/-- Settles O18: X not F keeps value and flag apart; with X = F it is the flag that is shifted. -/
theorem shiftsMoveTheLostBitToVF : Obligations.ShiftsMoveTheLostBitToVF := by
  intro x y s
  refine ⟨⟨decodeWord_encode (.shrVx x y), _, rfl, fun hx => ?shr, fun hx => ?shrVF, rfl, Frame.of_shiftReg _ _ _ x s⟩,
    decodeWord_encode (.shlVx x y), _, rfl, fun hx => ?shl, fun hx => ?shlVF, rfl, Frame.of_shiftReg _ _ _ x s⟩
  case shr =>
    obtain ⟨hreg, hflag⟩ := shiftReg_reg_of_ne hx Config.shiftVFLast lowBit (· >>> 1) s
    rw [hreg, hflag]
    exact ⟨toNat_shiftRight_one _, lowBit_toNat _⟩
  case shl =>
    obtain ⟨hreg, hflag⟩ := shiftReg_reg_of_ne hx Config.shiftVFLast highBit (· <<< 1) s
    rw [hreg, hflag]
    exact ⟨toNat_shiftLeft_one _, highBit_toNat _⟩
  case shrVF =>
    subst hx
    rw [shiftReg_reg_vF, toNat_shiftRight_one, lowBit_toNat]
    omega
  case shlVF =>
    subst hx
    have := (s.reg vF).isLt
    rw [shiftReg_reg_vF, toNat_shiftLeft_one, highBit_toNat]
    omega

/-! ### The key skips, each in its two cases (R191, R192, R197) -/

theorem skipOnKey_of_key {i : Instr} {x : RegNo} {s : State} {k : BitVec 4} (hk : (s.reg x).toNat = k.toNat)
    (pressed : Bool) : skipOnKey i pressed x s = .next (s.skipIf (s.key k == pressed)) := by
  have hlt := k.isLt
  have hkey : (s.reg x).setWidth 4 = k := by bv_omega
  obtain ⟨-, h⟩ | ⟨hout, -⟩ := skipOnKey_cases i pressed x s
  · rw [h, hkey]
  · omega

theorem skipOnKey_of_lt {i : Instr} {pressed : Bool} {x : RegNo} {s : State} (h : 0xF < (s.reg x).toNat) :
    skipOnKey i pressed x s = .next (raiseFault .keyIndexOutOfRange (s.pc - 2#16) (some (encode i)) s) := by
  obtain ⟨hin, -⟩ | ⟨-, hraise⟩ := skipOnKey_cases i pressed x s
  · omega
  · exact hraise

theorem raises_skpVx {x : RegNo} {s : State} (h : 0xF < (s.reg x).toNat) : Raises (.skpVx x) s := skipOnKey_of_lt h

theorem raises_sknpVx {x : RegNo} {s : State} (h : 0xF < (s.reg x).toNat) : Raises (.sknpVx x) s := skipOnKey_of_lt h

/-- Settles O28: the skip on the key that VX names, or the fault. -/
theorem keySkips : Obligations.KeySkips := by
  refine fun x s => ⟨decodeWord_encode (.skpVx x), decodeWord_encode (.sknpVx x), fun k hk => ⟨?skp, ?sknp⟩,
    fun hout => ⟨(raises_skpVx hout).faultsWith, (raises_sknpVx hout).faultsWith⟩⟩
  case skp => exact ⟨_, skipOnKey_of_key hk true, by simp, Frame.of_skipIf s _⟩
  case sknp => exact ⟨_, skipOnKey_of_key hk false, by cases s.key k <;> simp, Frame.of_skipIf s _⟩

/-! ### The wait for a key (R194, R248) -/

/-- The core waits in LD VX, K, with none of the keys 0x0 to 0xE pressed. -/
def Waiting (x : RegNo) (s : State) : Prop :=
  s.halted = false ∧ nextInstr s = some (.ldVxK x) ∧ ∀ k : BitVec 4, k.toNat ≤ 0xE → s.key k = false

/-- The scan finds no key, so pc goes back to where the fetch found it. -/
theorem Waiting.step_eq {x : RegNo} {s : State} (h : Waiting x s) : step s = .next (quiet s) := by
  obtain ⟨hrun, hi, hkeys⟩ := h
  have hback : (advance (quiet s)).pc - 2#16 = s.pc := BitVec.add_sub_cancel s.pc 2#16
  calc step s = exec (.ldVxK x) (advance (quiet s)) := step_of_nextInstr hrun hi
    _ = .next ((advance (quiet s)).setPc ((advance (quiet s)).pc - 2#16)) :=
      exec_ldVxK_of_firstKey_none (firstKey_eq_none _ hkeys)
    _ = .next (quiet s) := by rw [hback]; rfl

/-- Neither the fetch nor the keys nor the fault status look at the diagnostic port. -/
theorem waiting_quiet {x : RegNo} {s : State} (h : Waiting x s) : Waiting x (quiet s) := h

/-- Settles O30: the step of a waiting core silences the port, and what that leaves is waiting again. -/
theorem waitingForAKeyStaysInPlace : Obligations.WaitingForAKeyStaysInPlace := by
  intro x s hrun hi hkeys
  have hs : Waiting x s := ⟨hrun, hi, hkeys⟩
  exact ⟨hs.step_eq, runsSafely_of_step_closed (P := Waiting x) (fun _ h => h.1)
    (fun _ h => ⟨_, h.step_eq, waiting_quiet h⟩) hs⟩

/-! ### The writers of VF (R22) -/

theorem vF_mem_regsUpToNo {x : RegNo} (h : vF ∈ regsUpToNo x) : x = vF := by
  have hle : 15 ≤ x.toNat := (mem_regsUpToNo x vF).1 h
  bv_omega

/-- An instruction with VF in its footprint is one of the writers of VF. -/
theorem writesVF_of_footprint {i : Instr} {s : State} (h : vF ∈ (footprint i s).regs) : WritesVF i := by
  cases i with
  | addVxVy | subVxVy | shrVx | subnVxVy | shlVx | drwVxVyN => trivial
  | ldVxNn | addVxNn | ldVxVy | orVxVy | andVxVy | xorVxVy | rndVxNn | ldVxDt | ldVxK =>
    exact (List.mem_singleton.1 h).symm
  | ldVxInd x => exact vF_mem_regsUpToNo h
  | _ => exact absurd h List.not_mem_nil

/-- Settles O41: a register that changed is in the footprint of the instruction that ran. -/
theorem vfChangesOnlyByItsWriters : Obligations.VFChangesOnlyByItsWriters := by
  intro s t _ hstep hrun hne
  obtain ⟨i, hi, -, hregs, -⟩ | ⟨d, rfl⟩ := step_running_cases hstep hrun
  · exact ⟨i, hi, writesVF_of_footprint (by_contra fun hno => hne (hregs vF hno))⟩
  · exact absurd rfl hne

end Sys2Proof.Machine

/-!
PROOFS, family other, the display: DRW (R172, D14), two equal draws (R173), and the frame-buffer port (R225, D32).
-/

namespace Sys2Proof.Machine

/-! ### Drawing on pixels (R172, R173) -/

section
variable {rows : List Byte} (hlen : rows.length ≤ 32) (ox oy : Nat) (c : Canvas)
include hlen

theorem drawRows_pixel_of_covers {px py : Nat} (hx : px < 64) (hy : py < 32) (h : Covers rows ox oy px py) :
    FrameBuffer.pixel (drawRows ox rows oy c).fb px py = !FrameBuffer.pixel c.fb px py :=
  ((drawRows_spec rows ox oy c hlen).1 px hx py hy).1 h

theorem drawRows_pixel_of_not_covers {px py : Nat} (hx : px < 64) (hy : py < 32) (h : ¬ Covers rows ox oy px py) :
    FrameBuffer.pixel (drawRows ox rows oy c).fb px py = FrameBuffer.pixel c.fb px py :=
  ((drawRows_spec rows ox oy c hlen).1 px hx py hy).2 h

theorem drawRows_hit_iff (fb : FrameBuffer) :
    (drawRows ox rows oy ⟨fb, false⟩).hit = true ↔
      ∃ px < 64, ∃ py < 32, Covers rows ox oy px py ∧ FrameBuffer.pixel fb px py = true := by
  simpa using (drawRows_spec rows ox oy ⟨fb, false⟩ hlen).2

/-- A second draw flips the covered pixels back, whatever hits it starts with. -/
theorem drawRows_drawRows_fb (hit : Bool) : (drawRows ox rows oy ⟨(drawRows ox rows oy c).fb, hit⟩).fb = c.fb := by
  refine FrameBuffer.ext_pixel fun px hx py hy => ?_
  by_cases h : Covers rows ox oy px py
  · rw [drawRows_pixel_of_covers hlen _ _ _ hx hy h, drawRows_pixel_of_covers hlen _ _ _ hx hy h, Bool.not_not]
  · rw [drawRows_pixel_of_not_covers hlen _ _ _ hx hy h, drawRows_pixel_of_not_covers hlen _ _ _ hx hy h]

/-- A pixel the draw turned on is one it covers that was off, and is on after it. -/
theorem drawRows_turned_on_iff {px py : Nat} (hx : px < 64) (hy : py < 32) :
    (Covers rows ox oy px py ∧ FrameBuffer.pixel (drawRows ox rows oy c).fb px py = true) ↔
      (FrameBuffer.pixel c.fb px py = false ∧ FrameBuffer.pixel (drawRows ox rows oy c).fb px py = true) := by
  by_cases h : Covers rows ox oy px py
  · simp [h, drawRows_pixel_of_covers hlen ox oy c hx hy h]
  · simp [h, drawRows_pixel_of_not_covers hlen ox oy c hx hy h]

end

/-- Rows of zero bytes have no set bit, so they draw nothing. -/
theorem drawRows_of_zero {rows : List Byte} (h : ∀ row ∈ rows, row = 0#8) (ox oy : Nat) (c : Canvas) :
    drawRows ox rows oy c = c := by
  induction rows generalizing oy with
  | nil => rfl
  | cons row rows ih =>
    obtain ⟨rfl, hrows⟩ := List.forall_mem_cons.1 h
    have hrow : drawRow 0#8 ox oy c = c := by simp [drawRow, drawBit]
    rw [drawRows, hrow, ih hrows]

/-! ### DRW, in its two cases (R172, D14) -/

/-- The n sprite bytes from I on. -/
def State.sprite (s : State) (n : Nibble) : List Byte := (List.range n.toNat).map fun k => s.mem.get (s.ireg.toNat + k)

theorem State.sprite_length_le (s : State) (n : Nibble) : (s.sprite n).length ≤ 32 := by
  rw [State.sprite, List.length_map, List.length_range]
  omega

theorem State.sprite_congr {s s' : State} {n : Nibble} (hI : s'.ireg = s.ireg)
    (hbytes : ∀ k < n.toNat, s'.mem.get (s.ireg.toNat + k) = s.mem.get (s.ireg.toNat + k)) :
    s'.sprite n = s.sprite n := by
  rw [State.sprite, hI]
  exact List.map_congr_left fun k hk => hbytes k (List.mem_range.1 hk)

theorem State.sprite_zero {s : State} {n : Nibble} (h : ∀ k < n.toNat, s.mem.get (s.ireg.toNat + k) = 0#8) :
    ∀ row ∈ s.sprite n, row = 0#8 := by
  simpa [State.sprite] using h

/-- The state a draw that does not fault leaves: the origin is read before VF is cleared (D14). -/
def State.drawn (s : State) (x y : RegNo) (n : Nibble) : State :=
  paint (s.sprite n) (s.reg x).toNat (s.reg y).toNat (s.setFlag false)

theorem exec_drwVxVyN_of_le {x y : RegNo} {n : Nibble} {s : State} (h : n = 0 ∨ s.ireg.toNat + n.toNat - 1 ≤ 0xFFF) :
    exec (.drwVxVyN x y n) s = .next (s.drawn x y n) := by
  obtain ⟨-, hdraw⟩ | ⟨hne, hout, -⟩ := drawSprite_cases Config.originBeforeClear (.drwVxVyN x y n) x y n s
  · exact hdraw
  · obtain rfl | h := h
    · exact absurd rfl hne
    · omega

theorem raises_drwVxVyN {x y : RegNo} {n : Nibble} {s : State} (hne : n ≠ 0) (h : 0xFFF < s.ireg.toNat + n.toNat - 1) :
    Raises (.drwVxVyN x y n) s := by
  have hpos : n.toNat ≠ 0 := fun h0 => hne (BitVec.eq_of_toNat_eq h0)
  obtain ⟨hin, -⟩ | ⟨-, -, hraise⟩ := drawSprite_cases Config.originBeforeClear (.drwVxVyN x y n) x y n s
  · omega
  · exact hraise

/-- The canvas DRW ends with: the pixels it leaves, and the hit that VF takes. -/
def State.canvas (s : State) (x y : RegNo) (n : Nibble) : Canvas :=
  drawRows (s.reg x).toNat (s.sprite n) (s.reg y).toNat ⟨s.fb, false⟩

theorem State.drawn_fb (s : State) (x y : RegNo) (n : Nibble) : (s.drawn x y n).fb = (s.canvas x y n).fb := rfl

theorem State.drawn_reg_vF (s : State) (x y : RegNo) (n : Nibble) :
    (s.drawn x y n).reg vF = flagByte (s.canvas x y n).hit := by
  rw [State.drawn, paint_reg, if_pos rfl]
  rfl

theorem flagByte_of_iff {c : Bool} {p : Prop} (h : c = true ↔ p) :
    (p → flagByte c = 1#8) ∧ (¬ p → flagByte c = 0#8) := by
  cases c with
  | true => exact ⟨fun _ => rfl, fun hp => absurd (h.1 rfl) hp⟩
  | false => exact ⟨fun hp => absurd (h.2 hp) Bool.false_ne_true, fun _ => rfl⟩

theorem flagByte_eq_one_iff (c : Bool) : flagByte c = 1#8 ↔ c = true := by
  cases c <;> decide

/-- Settles O26: the sprite's rows drawn over the pixels, the hit in VF. -/
theorem drawFlipsCoveredPixels : Obligations.DrawFlipsCoveredPixels := by
  refine fun x y n s => ⟨decodeWord_encode (.drwVxVyN x y n), fun hin => ?_,
    fun ⟨hne, hout⟩ => (raises_drwVxVyN hne hout).faultsWith⟩
  have hlen := s.sprite_length_le n
  obtain ⟨hset, hclear⟩ := flagByte_of_iff (drawRows_hit_iff hlen (s.reg x).toNat (s.reg y).toNat s.fb)
  refine ⟨s.drawn x y n, _, rfl, exec_drwVxVyN_of_le hin, fun px hx py hy => ⟨?covered, ?uncovered⟩, fun h => ?set,
    fun h => ?clear, rfl, rfl, Frame.of_paint s _ _ _⟩
  case covered => exact drawRows_pixel_of_covers hlen _ _ _ hx hy
  case uncovered => exact drawRows_pixel_of_not_covers hlen _ _ _ hx hy
  case set => exact (s.drawn_reg_vF x y n).trans (hset h)
  case clear => exact (s.drawn_reg_vF x y n).trans (hclear h)

/-- Settles O27: both draws are of the same rows at the same origin, the second over what the first left. -/
theorem drawTwiceRestores : Obligations.DrawTwiceRestores := by
  intro x y n s t s' t' hin hexec hfb hx hy hI hbytes hexec'
  obtain rfl := Host.Outcome.next.inj ((exec_drwVxVyN_of_le hin).symm.trans hexec)
  obtain rfl := Host.Outcome.next.inj ((exec_drwVxVyN_of_le (hI ▸ hin)).symm.trans hexec')
  have hlen := s.sprite_length_le n
  have hagain : s'.canvas x y n =
      drawRows (s.reg x).toNat (s.sprite n) (s.reg y).toNat ⟨(s.canvas x y n).fb, false⟩ := by
    rw [State.canvas, hx, hy, State.sprite_congr hI hbytes, hfb, s.drawn_fb]
  refine ⟨?restored, ?flag, fun hzero => ?zero⟩
  case restored =>
    rw [State.drawn_fb, hagain]
    exact drawRows_drawRows_fb hlen _ _ _ _
  case flag =>
    rw [State.drawn_reg_vF, flagByte_eq_one_iff, hagain, drawRows_hit_iff hlen]
    exact exists_congr fun px => and_congr_right fun hpx => exists_congr fun py => and_congr_right fun hpy =>
      drawRows_turned_on_iff hlen _ _ _ hpx hpy
  case zero =>
    have hcanvas : s.canvas x y n = ⟨s.fb, false⟩ := drawRows_of_zero (State.sprite_zero hzero) _ _ _
    rw [State.drawn_fb, State.drawn_reg_vF, hcanvas]
    exact ⟨rfl, rfl⟩

/-! ### The frame-buffer port -/

/-- Settles O51: the port is the rows end to end, and pixel x of row y is entry 64 y + x of them. -/
theorem frameBufferPortBits : Obligations.FrameBufferPortBits := by
  intro s x y hx hy
  have hbit : 64 * y + x < 2048 := by omega
  have hentry := getElem?_flatMap_toList s.fb.toList x y hx
  rw [fbOut, BitVec.getLsbD_ofNat, bitsToNat_testBit, hentry]
  simp [hbit, hy, FrameBuffer.pixel, Nat.mod_eq_of_lt hx, Nat.mod_eq_of_lt hy]

end Sys2Proof.Machine

/-!
PROOFS, family other, the host: the reset transaction (R244) and the two loads (R225, R242).
-/

namespace Sys2Proof.Machine

/-- Settles O35: `construct` is that construction state. -/
theorem resetTransactionReconstructs : Obligations.ResetTransactionReconstructs :=
  fun _ => ⟨rfl, rfl, rfl, rfl, rfl⟩

/-! ### What is refused (R242, D20) -/

theorem Session.apply_loadByte_of_started {h : Session} (hstarted : h.started = true) (offset : Addr12) (data : Byte) :
    Session.apply (.loadByte offset data) h = .refused .loadAfterFirstStep := if_pos hstarted

theorem Session.load_of_started {h : Session} (hstarted : h.started = true) (image : List Byte) :
    Session.load image h = .refused .loadAfterFirstStep := if_pos hstarted

theorem Session.apply_loadByte_of_le {h : Session} (hstarted : h.started = false) {offset : Addr12}
    (hout : 3584 ≤ offset.toNat) (data : Byte) :
    Session.apply (.loadByte offset data) h = .refused .loadOutOfWindow := by
  have hno : ¬ offset.toNat < 3584 := by omega
  simp [Session.apply, Session.resume, Machine.loadByte, loadOffsetOk, Config.maxImage, hstarted, hno]

theorem Session.load_of_lt {h : Session} (hstarted : h.started = false) {image : List Byte}
    (hlong : 3584 < image.length) : Session.load image h = .refused .imageTooLarge := by
  have hno : ¬ image.length ≤ 3584 := by omega
  simp [Session.load, Session.resume, loadImage, imageFits, Config.maxImage, hstarted, hno]

/-- Settles O48: an image that goes in is written whole from 0x200. -/
theorem loadCopiesTheImage : Obligations.LoadCopiesTheImage := by
  refine fun image h hwf _ => ⟨fun hs => Session.load_of_started hs image,
    fun hs hlong => Session.load_of_lt hs hlong, fun hs hfits => ?_⟩
  have hrange : 0x200 + image.length ≤ 4096 := by omega
  exact ⟨_, Session.load_eq_next.2 ⟨hs, _, loadImage_eq_next.2 ⟨hfits, rfl⟩, rfl⟩, rfl,
    fun k b hk => Memory.get_setBytes_add hwf hrange hk,
    Memory.get_setBytes_of_outside h.core.mem 0x200 image, rfl⟩

/-- Settles O49: a byte that goes in is one write at 0x200 + offset. -/
theorem loadPortWindow : Obligations.LoadPortWindow := by
  refine fun offset data h hwf => ⟨fun hs => Session.apply_loadByte_of_started hs offset data,
    fun hs hout => Session.apply_loadByte_of_le hs hout data, fun hs hin => ?_⟩
  exact ⟨_, Session.apply_loadByte_eq_next.2 ⟨hs, _, loadByte_eq_next.2 ⟨hin, rfl⟩, rfl⟩, rfl, rfl,
    fun a => Memory.get_set h.core.mem hwf (0x200 + offset.toNat) a data⟩

end Sys2Proof.Machine
